-- ==== Sys2Proof/Word.lean ====
section
/-! DEFINITION. The 16-bit word of the machine: a memory cell, a register, an encoded instruction (00_scope R7, R9). -/

namespace Sys2Proof

/-- A 16-bit pattern; bit 0 is the least significant bit (R8, R9). -/
abbrev Word := BitVec 16

/-- `uval(w)`: the unsigned value of a pattern, 0 to 65535 (R9). -/
def uval (w : Word) : Nat := w.toNat

end Sys2Proof
end

