-- ==== Sys2Proof/Config.lean ====
section
/-! DEFINITION. What is fixed for one model instance (00_scope R7, 10_state R21) and the one free value of the model.
The default parameter values stand in Decode.lean. -/

namespace Sys2Proof

/-- The 23 mnemonics of 30_encoding R84. WRITEACC is `writeAccumulator` and READI is `readImmediate` (90_conflicts C6). -/
inductive Mnemonic where
  | read | write | writeAccumulator | readImmediate
  | load | store | loadImmediate
  | add | sub | div | mod | mul
  | addImmediate | subImmediate | divImmediate | modImmediate | mulImmediate
  | jump | jumpIfNegative | jumpIfZero | halt | jumpIfNotZero | jumpIfGreaterThanZero
  deriving DecidableEq, Repr

/-- The mnemonics that share the opcodes 10 to 13 (R84, R85). -/
def Mnemonic.ioGroup : List Mnemonic := [.read, .write, .writeAccumulator, .readImmediate]

/-- The mnemonics that share the opcodes 20 to 22 (R84, R85). -/
def Mnemonic.memoryGroup : List Mnemonic := [.load, .store, .loadImmediate]

/-- The mnemonics that share the opcodes 30 to 34 (R84, R85). -/
def Mnemonic.memArithGroup : List Mnemonic := [.add, .sub, .div, .mod, .mul]

/-- The mnemonics that share the opcodes 35 to 39 (R84, R85). -/
def Mnemonic.immArithGroup : List Mnemonic :=
  [.addImmediate, .subImmediate, .divImmediate, .modImmediate, .mulImmediate]

/-- `OPCODE_ASSIGNMENT` (R7, R85, D4): the order of the mnemonics inside each range whose numbers the source does not
settle. The opcodes 40 to 45 are settled and have no field. -/
structure OpcodeAssignment where
  /-- opcodes 10, 11, 12, 13, in this order -/
  io : List Mnemonic
  /-- opcodes 20, 21, 22 -/
  memory : List Mnemonic
  /-- opcodes 30 to 34 -/
  memArith : List Mnemonic
  /-- opcodes 35 to 39 -/
  immArith : List Mnemonic
  deriving DecidableEq, Repr

/-- `MEM_INIT` (R7, 20_memory R68, D6): the content of every cell after reset. -/
inductive MemInit where
  /-- every cell holds 0x0000 -/
  | zero
  /-- every cell holds an unconstrained pattern, a free draw per cell -/
  | arbitrary
  deriving DecidableEq, Repr

/-- The parameters of 00_scope R7 that a model instance fixes. -/
structure Config where
  /-- `MEM_SIZE`, the number N of memory cells -/
  memSize : Nat
  /-- `MEM_INIT` -/
  memInit : MemInit
  /-- `OPCODE_ASSIGNMENT` -/
  opcodes : OpcodeAssignment
  deriving DecidableEq, Repr

/-- FREE VALUE (20_memory R68, 93_implementation_defined row 6): the pattern of a cell that nothing has written since
reset number `epoch`, under `MEM_INIT = ARBITRARY`. It has no body: nothing can be proved of its value.
Log entry 3; safe. -/
opaque Config.arbitraryCell (epoch : Nat) (address : Nat) : Word

end Sys2Proof
end

