-- ==== Sys2Proof/Syntax.lean ====
section
/-! DEFINITION. The instructions: one constructor per row of spec/opcode_table.json. -/

namespace Sys2Proof

/-- The 23 instructions of 30_encoding R84 with the operand R82 gives them: a cell address, an immediate value, or none
where the operand digits are ignored (R88, log entry 12). Operands are below 100 in a well-formed instruction. -/
inductive Instr where
  /-- READ addr (40_io R122) -/
  | read (addr : Nat)
  /-- WRITE addr (40_io R123) -/
  | write (addr : Nat)
  /-- WRITE-ACCUMULATOR, alias WRITEACC (40_io R124) -/
  | writeAccumulator
  /-- READ-IMMEDIATE, alias READI (40_io R125) -/
  | readImmediate
  /-- LOAD addr (41_load_store R140) -/
  | load (addr : Nat)
  /-- STORE addr (41_load_store R141) -/
  | store (addr : Nat)
  /-- LOAD-IMMEDIATE val (41_load_store R142) -/
  | loadImmediate (val : Nat)
  /-- ADD addr (42_arithmetic R170) -/
  | add (addr : Nat)
  /-- SUB addr (42_arithmetic R171) -/
  | sub (addr : Nat)
  /-- DIV addr (42_arithmetic R172) -/
  | div (addr : Nat)
  /-- MOD addr (42_arithmetic R173) -/
  | mod (addr : Nat)
  /-- MUL addr (42_arithmetic R174) -/
  | mul (addr : Nat)
  /-- ADD-IMMEDIATE val (42_arithmetic R175) -/
  | addImmediate (val : Nat)
  /-- SUB-IMMEDIATE val (42_arithmetic R176) -/
  | subImmediate (val : Nat)
  /-- DIV-IMMEDIATE val (42_arithmetic R177) -/
  | divImmediate (val : Nat)
  /-- MOD-IMMEDIATE val (42_arithmetic R178) -/
  | modImmediate (val : Nat)
  /-- MUL-IMMEDIATE val (42_arithmetic R179) -/
  | mulImmediate (val : Nat)
  /-- JUMP addr (43_control R201) -/
  | jump (addr : Nat)
  /-- JUMP-IF-NEGATIVE addr (43_control R202) -/
  | jumpIfNegative (addr : Nat)
  /-- JUMP-IF-ZERO addr (43_control R203) -/
  | jumpIfZero (addr : Nat)
  /-- HALT (43_control R207) -/
  | halt
  /-- JUMP-IF-NOT-ZERO addr (43_control R204) -/
  | jumpIfNotZero (addr : Nat)
  /-- JUMP-IF-GREATER-THAN-ZERO addr (43_control R205) -/
  | jumpIfGreaterThanZero (addr : Nat)
  deriving DecidableEq, Repr

end Sys2Proof
end

