-- ==== Sys2Proof/WellFormed.lean ====
section
/-! DEFINITION. The checks on an instruction's operand and on the parameters of a model instance. -/

namespace Sys2Proof

/-- An operand is two decimal digits, 0 to 99 (00_scope R7, 30_encoding R82). -/
def operandInRange (n : Nat) : Bool := decide (n < 100)

/-- An instruction is well-formed when its operand, if it has one, is 0 to 99 (R82). -/
def Instr.wf : Instr → Bool
  | .read n => operandInRange n
  | .write n => operandInRange n
  | .writeAccumulator => true
  | .readImmediate => true
  | .load n => operandInRange n
  | .store n => operandInRange n
  | .loadImmediate n => operandInRange n
  | .add n => operandInRange n
  | .sub n => operandInRange n
  | .div n => operandInRange n
  | .mod n => operandInRange n
  | .mul n => operandInRange n
  | .addImmediate n => operandInRange n
  | .subImmediate n => operandInRange n
  | .divImmediate n => operandInRange n
  | .modImmediate n => operandInRange n
  | .mulImmediate n => operandInRange n
  | .jump n => operandInRange n
  | .jumpIfNegative n => operandInRange n
  | .jumpIfZero n => operandInRange n
  | .halt => true
  | .jumpIfNotZero n => operandInRange n
  | .jumpIfGreaterThanZero n => operandInRange n

/-- "Any permutation within a range is allowed, and the ranges are fixed" (30_encoding R85). -/
def OpcodeAssignment.wf (a : OpcodeAssignment) : Bool :=
  a.io.isPerm Mnemonic.ioGroup && a.memory.isPerm Mnemonic.memoryGroup &&
    a.memArith.isPerm Mnemonic.memArithGroup && a.immArith.isPerm Mnemonic.immArithGroup

/-- The parameters are in the ranges of 00_scope R7: 1 ≤ N ≤ 65535 (D18), and an allowed opcode assignment. -/
def Config.wf (c : Config) : Bool :=
  decide (1 ≤ c.memSize) && decide (c.memSize ≤ 65535) && c.opcodes.wf

end Sys2Proof
end

