-- ==== Sys2Proof/Decode.lean ====
section
/-! DEFINITION. The decoder (30_encoding R80 to R89), the encoder block (R100 to R106) and the default parameters (R7). -/

namespace Sys2Proof

/-! ### The opcode map and the default parameters -/

/-- The default opcode map of 30_encoding R84 (decision D4; log entry 13). -/
def OpcodeAssignment.standard : OpcodeAssignment where
  io := [.read, .write, .writeAccumulator, .readImmediate]
  memory := [.load, .store, .loadImmediate]
  memArith := [.add, .sub, .div, .mod, .mul]
  immArith := [.addImmediate, .subImmediate, .divImmediate, .modImmediate, .mulImmediate]

/-- The default parameters of 00_scope R7: N = 100, `MEM_INIT = ZERO`, the map of R84. -/
def Config.standard : Config where
  memSize := 100
  memInit := .zero
  opcodes := OpcodeAssignment.standard

/-- `op(m)`: the opcode number of a mnemonic (30_encoding R84, R101). -/
def OpcodeAssignment.number (a : OpcodeAssignment) (m : Mnemonic) : Nat :=
  match m with
  | .read | .write | .writeAccumulator | .readImmediate => 10 + a.io.idxOf m
  | .load | .store | .loadImmediate => 20 + a.memory.idxOf m
  | .add | .sub | .div | .mod | .mul => 30 + a.memArith.idxOf m
  | .addImmediate | .subImmediate | .divImmediate | .modImmediate | .mulImmediate =>
    35 + a.immArith.idxOf m
  | .jump => 40
  | .jumpIfNegative => 41
  | .jumpIfZero => 42
  | .halt => 43
  | .jumpIfNotZero => 44
  | .jumpIfGreaterThanZero => 45

/-- The mnemonic of an opcode number, none where the number is not in the table (30_encoding R84, R87). -/
def OpcodeAssignment.mnemonicOf (a : OpcodeAssignment) (opc : Nat) : Option Mnemonic :=
  if 10 ≤ opc ∧ opc < 14 then a.io[opc - 10]?
  else if 20 ≤ opc ∧ opc < 23 then a.memory[opc - 20]?
  else if 30 ≤ opc ∧ opc < 35 then a.memArith[opc - 30]?
  else if 35 ≤ opc ∧ opc < 40 then a.immArith[opc - 35]?
  else if opc = 40 then some .jump
  else if opc = 41 then some .jumpIfNegative
  else if opc = 42 then some .jumpIfZero
  else if opc = 43 then some .halt
  else if opc = 44 then some .jumpIfNotZero
  else if opc = 45 then some .jumpIfGreaterThanZero
  else none

/-! ### The decoder -/

/-- `opc = uval(w) / 100` (30_encoding R81). -/
def opcodeField (w : Word) : Nat := uval w / 100

/-- `opd = uval(w) % 100` (30_encoding R81). -/
def operandField (w : Word) : Nat := uval w % 100

/-- The instruction of a mnemonic with the operand digits `n`, which the three mnemonics of R88 ignore. -/
def Mnemonic.instr (m : Mnemonic) (n : Nat) : Instr :=
  match m with
  | .read => .read n
  | .write => .write n
  | .writeAccumulator => .writeAccumulator
  | .readImmediate => .readImmediate
  | .load => .load n
  | .store => .store n
  | .loadImmediate => .loadImmediate n
  | .add => .add n
  | .sub => .sub n
  | .div => .div n
  | .mod => .mod n
  | .mul => .mul n
  | .addImmediate => .addImmediate n
  | .subImmediate => .subImmediate n
  | .divImmediate => .divImmediate n
  | .modImmediate => .modImmediate n
  | .mulImmediate => .mulImmediate n
  | .jump => .jump n
  | .jumpIfNegative => .jumpIfNegative n
  | .jumpIfZero => .jumpIfZero n
  | .halt => .halt
  | .jumpIfNotZero => .jumpIfNotZero n
  | .jumpIfGreaterThanZero => .jumpIfGreaterThanZero n

/-- Why a word is no instruction. -/
inductive DecodeError where
  /-- the opcode is not in the table of 30_encoding R84 (R87) -/
  | invalidOpcode (opc : Nat)
  deriving DecidableEq, Repr

/-- A word as the pair of a mnemonic and its operand digits, or a refusal by name. Total on every 16-bit pattern, and
only the opcode decides (30_encoding R81, R86, R87). -/
def decodeFields (a : OpcodeAssignment) (w : Word) : Except DecodeError (Mnemonic × Nat) :=
  match a.mnemonicOf (opcodeField w) with
  | some m => .ok (m, operandField w)
  | none => .error (.invalidOpcode (opcodeField w))

/-- The decoder: a word as an instruction, or a refusal by name (30_encoding R86, R87). -/
def decode (a : OpcodeAssignment) (w : Word) : Except DecodeError Instr :=
  (decodeFields a w).map fun p => p.1.instr p.2

/-- The decoder under the default opcode map, on an instruction given as a number of `nbits` bits. An instruction is one
16-bit word (30_encoding R83): the bits above `nbits` are 0 and bits above 15 are not the instruction's. -/
def decodeTableWord (nbits w : Nat) : Option Instr :=
  (decode OpcodeAssignment.standard (BitVec.ofNat 16 (w % 2 ^ nbits))).toOption

/-! ### The encoder block -/

/-- The operand forms of the encoder: none, or one of the source's three assembly-time operands (30_encoding R100). -/
inductive EncOperand where
  | none
  | immediate (n : Nat)
  | labelName (name : String)
  | variableName (name : String)
  deriving DecidableEq, Repr

/-- The errors of the encoder; none of them is a fault of the core (30_encoding R100, 60_exceptions R251). -/
inductive EncodeError where
  | operandOutOfRange
  | unresolvedLabel
  | unresolvedVariable
  deriving DecidableEq, Repr

/-- The encoder block: `op(m) × 100 + n`, with the checks in the order of 30_encoding R102 (R103, R104). It checks no
arity (R105). -/
def encoderBlock (a : OpcodeAssignment) (m : Mnemonic) (o : EncOperand) : Except EncodeError Word :=
  match o with
  | .labelName _ => .error .unresolvedLabel
  | .variableName _ => .error .unresolvedVariable
  | .none => .ok (BitVec.ofNat 16 (a.number m * 100))
  | .immediate n =>
    if 100 ≤ n then .error .operandOutOfRange else .ok (BitVec.ofNat 16 (a.number m * 100 + n))

/-- The mnemonic of an instruction (30_encoding R84). -/
def Instr.mnemonic : Instr → Mnemonic
  | .read _ => .read
  | .write _ => .write
  | .writeAccumulator => .writeAccumulator
  | .readImmediate => .readImmediate
  | .load _ => .load
  | .store _ => .store
  | .loadImmediate _ => .loadImmediate
  | .add _ => .add
  | .sub _ => .sub
  | .div _ => .div
  | .mod _ => .mod
  | .mul _ => .mul
  | .addImmediate _ => .addImmediate
  | .subImmediate _ => .subImmediate
  | .divImmediate _ => .divImmediate
  | .modImmediate _ => .modImmediate
  | .mulImmediate _ => .mulImmediate
  | .jump _ => .jump
  | .jumpIfNegative _ => .jumpIfNegative
  | .jumpIfZero _ => .jumpIfZero
  | .halt => .halt
  | .jumpIfNotZero _ => .jumpIfNotZero
  | .jumpIfGreaterThanZero _ => .jumpIfGreaterThanZero

/-- The encoder's operand for an instruction: `None` where the operand is ignored (30_encoding R82, R88). -/
def Instr.operand : Instr → EncOperand
  | .read n => .immediate n
  | .write n => .immediate n
  | .writeAccumulator => .none
  | .readImmediate => .none
  | .load n => .immediate n
  | .store n => .immediate n
  | .loadImmediate n => .immediate n
  | .add n => .immediate n
  | .sub n => .immediate n
  | .div n => .immediate n
  | .mod n => .immediate n
  | .mul n => .immediate n
  | .addImmediate n => .immediate n
  | .subImmediate n => .immediate n
  | .divImmediate n => .immediate n
  | .modImmediate n => .immediate n
  | .mulImmediate n => .immediate n
  | .jump n => .immediate n
  | .jumpIfNegative n => .immediate n
  | .jumpIfZero n => .immediate n
  | .halt => .none
  | .jumpIfNotZero n => .immediate n
  | .jumpIfGreaterThanZero n => .immediate n

/-- The word of an instruction; an ill-formed one is refused with `operandOutOfRange` (30_encoding R102, R103). -/
def encode (a : OpcodeAssignment) (i : Instr) : Except EncodeError Word :=
  encoderBlock a i.mnemonic i.operand

end Sys2Proof
end

