-- ==== Sys2Proof/Machine/State.lean ====
section
/-! DEFINITION. The state of the machine: everything 10_state R20 gives the core, the memory of 20_memory R50, what has
crossed the console ports, and the parameters the instance was built with. -/

namespace Sys2Proof.Machine

/-- The run status (10_state R28). -/
inductive Status where
  /-- 0: after reset; memory may be loaded; no instruction runs -/
  | idle
  /-- 1: the instruction cycle repeats -/
  | running
  /-- 2: a READ or READ-IMMEDIATE waits for the console; the input request is outstanding -/
  | waitInput
  /-- 3: HALT executed -/
  | halted
  /-- 4: a fault stopped the run -/
  | faulted
  deriving DecidableEq, Repr

/-- The fault kinds of 60_exceptions R230. -/
inductive FaultKind where
  /-- 0: no fault has occurred -/
  | none
  /-- 1 -/
  | addressOutOfBounds
  /-- 2 -/
  | invalidOpcode
  /-- 3 -/
  | divisionByZero
  /-- 4 -/
  | invalidReadInput
  /-- 5 -/
  | arithmeticOverflow
  /-- 6: reserved, never raised (R236) -/
  | nonNumericWord
  deriving DecidableEq, Repr

/-- A console answer (40_io R120): the integer of one line, or the news that the line did not parse as one. -/
inductive Answer where
  | value (v : Int)
  | malformed
  deriving DecidableEq, Repr

/-- Memory as (address, word) pairs in canonical form: addresses strictly rising, below N, and no entry equal to what an
unlisted cell holds. One entry is one cell, the smallest thing an address names (20_memory R50, R57; log entry 2). -/
abbrev Memory := List (Nat × Word)

/-- The machine's state. Plain data. -/
structure State where
  /-- the parameters of the instance (00_scope R7); never written (10_state R21; log entry 1) -/
  cfg : Config
  /-- the accumulator, a two's complement value (10_state R22) -/
  acc : Word
  /-- the program counter, an unsigned cell address (10_state R25) -/
  pc : Word
  /-- the last fetched word (10_state R31) -/
  ir : Word
  /-- the decoded opcode, 0 to 655 (10_state R32) -/
  opc : Nat
  /-- the decoded operand, 0 to 99 (10_state R32) -/
  opd : Nat
  /-- the run status (10_state R28) -/
  status : Status
  /-- the fault that stopped the run (10_state R29) -/
  faultKind : FaultKind
  /-- the address that failed the bounds check, else 0 (10_state R30) -/
  faultAddr : Word
  /-- the memory array (20_memory R50) -/
  mem : Memory
  /-- the console's answers not yet taken, oldest first: the oracle of 40_io R120 (log entry 5) -/
  console : List Answer
  /-- the values sent on the console output port since reset, oldest first (40_io R121; log entry 7) -/
  output : List Int
  /-- how many resets there have been, so that the draw of `MEM_INIT = ARBITRARY` is fresh at each (log entry 3) -/
  epoch : Nat
  deriving DecidableEq, Repr

/-- The stops of the MODEL. No runtime fault of the core is among them: those are next states with `status = faulted`
(60_exceptions R237; log entry 8). -/
inductive Fault where
  /-- Raised by `step` in WAIT_INPUT, when an answer is there and `ir` holds neither a READ nor a READ-IMMEDIATE. No run
  reaches such a state (Safety's invariant). Safe: the model stops where the spec describes nothing (log entry 9). -/
  | noReadPending
  deriving DecidableEq, Repr

/-- The refusals of the model. -/
inductive Refusal where
  /-- Raised by an arm of `exec` whose instruction has no meaning yet; no arm is left so. Safe. -/
  | notModelled (mnemonic : String)
  deriving DecidableEq, Repr

/-- The state after a reset of an instance with the parameters `c`: every register at its value of 10_state R37, no request
outstanding, no output pending, and no cell listed, so that every cell holds what 20_memory R68 says. -/
def State.resetWith (c : Config) : State where
  cfg := c
  acc := 0
  pc := 0
  ir := 0
  opc := 0
  opd := 0
  status := .idle
  faultKind := .none
  faultAddr := 0
  mem := []
  console := []
  output := []
  epoch := 0

/-- The machine right after reset, with the default parameters of 00_scope R7 (10_state R37, 70_reset R260, R261). -/
def State.reset : State := State.resetWith Config.standard

end Sys2Proof.Machine
end

