-- ==== Sys2Proof/Machine/Ops.lean ====
section
/-! DEFINITION. The named operations over memory and registers: the two readings of a word, the memory interface, the
console ports, the program counter, and fault entry. -/

namespace Sys2Proof.Machine

/-- What a step of this machine answers. -/
abbrev Result := Host.Outcome State Fault Refusal

/-! ### The readings of a word -/

/-- `sval(w)`: the two's complement value of a pattern, −32768 to 32767 (00_scope R9). -/
def sval (w : Word) : Int := if uval w < 32768 then (uval w : Int) else (uval w : Int) - 65536

/-- `bits16(v)`: the pattern congruent to `v` modulo 65536 (00_scope R9). -/
def bits16 (v : Int) : Word := BitVec.ofInt 16 v

/-- `zext_16(v)`: a non-negative operand as a 16-bit pattern (00_scope R9, 30_encoding R82). -/
def zext16 (n : Nat) : Word := BitVec.ofNat 16 n

/-- The data range of 00_scope R7: −32768 to 32767. -/
def inRange (v : Int) : Bool := decide (-32768 ≤ v) && decide (v ≤ 32767)

/-! ### Memory as data -/

/-- The pattern in cell `a` of a memory whose unlisted cells hold `d`. -/
def Memory.read (d : Nat → Word) (m : Memory) (a : Nat) : Word :=
  match m with
  | [] => d a
  | c :: m => if c.1 = a then c.2 else Memory.read d m a

/-- The memory with no entry for cell `a`. -/
def Memory.forget (m : Memory) (a : Nat) : Memory := m.filter fun c => decide (c.1 ≠ a)

/-- The memory with an entry for cell `a` put in its place in the rising order. -/
def Memory.enter (m : Memory) (a : Nat) (w : Word) : Memory :=
  match m with
  | [] => [(a, w)]
  | c :: m => if a < c.1 then (a, w) :: c :: m else c :: Memory.enter m a w

/-- The memory with pattern `w` in cell `a`. Writing what an unlisted cell holds leaves no entry. -/
def Memory.write (d : Nat → Word) (m : Memory) (a : Nat) (w : Word) : Memory :=
  if w = d a then Memory.forget m a else Memory.enter (Memory.forget m a) a w

/-- The canonical form: addresses strictly rising, every cell below N, no entry equal to what an unlisted cell holds. -/
def Memory.wf (n : Nat) (d : Nat → Word) (m : Memory) : Bool :=
  decide (m.Pairwise fun x y => x.1 < y.1) && m.all fun c => decide (c.1 < n) && decide (c.2 ≠ d c.1)

/-- What a cell that nothing has written since reset holds (20_memory R68): 0x0000 under ZERO, a free value under
ARBITRARY (log entries 3 and 4). -/
def State.unlisted (s : State) (a : Nat) : Word :=
  match s.cfg.memInit with
  | .zero => 0
  | .arbitrary => Config.arbitraryCell s.epoch a

/-- `M[a]`: the pattern in cell `a` (00_scope R11). -/
def State.cell (s : State) (a : Nat) : Word := Memory.read s.unlisted s.mem a

/-- `M[a] <- w` (00_scope R11). -/
def State.setCell (s : State) (a : Nat) (w : Word) : State :=
  { s with mem := Memory.write s.unlisted s.mem a w }

/-! ### Faults -/

/-- A runtime fault as `raise K(info)` names it (00_scope R11): the kinds of 60_exceptions R230 that can be raised. -/
inductive Trap where
  | addressOutOfBounds (a : Nat)
  | invalidOpcode
  | divisionByZero
  | invalidReadInput
  | arithmeticOverflow
  deriving DecidableEq, Repr

/-- What `fault_kind` records (60_exceptions R230). -/
def Trap.kind : Trap → FaultKind
  | .addressOutOfBounds _ => .addressOutOfBounds
  | .invalidOpcode => .invalidOpcode
  | .divisionByZero => .divisionByZero
  | .invalidReadInput => .invalidReadInput
  | .arithmeticOverflow => .arithmeticOverflow

/-- What `fault_addr` records: the failing address of AddressOutOfBounds, 0 for every other fault (10_state R30). -/
def Trap.addr : Trap → Word
  | .addressOutOfBounds a => BitVec.ofNat 16 a
  | _ => 0

/-- Fault entry (60_exceptions R237): `status`, `fault_kind` and `fault_addr` are written and nothing else changes. There
is no return from it but reset (R242). -/
def State.raise (s : State) (k : Trap) : State :=
  { s with status := .faulted, faultKind := k.kind, faultAddr := k.addr }

/-! ### The memory interface -/

/-- `MemRead(a, 1)` (20_memory R52). -/
def memRead (s : State) (a : Nat) : Except Trap Word :=
  if a < s.cfg.memSize then .ok (s.cell a) else .error (.addressOutOfBounds a)

/-- `MemWrite(a, 1, w)` (20_memory R53). -/
def memWrite (s : State) (a : Nat) (w : Word) : Except Trap State :=
  if a < s.cfg.memSize then .ok (s.setCell a w) else .error (.addressOutOfBounds a)

/-! ### Registers -/

/-- `acc <- v`, the value already in range (10_state R22). -/
def State.setAcc (s : State) (v : Int) : State := { s with acc := bits16 v }

/-- `pc <- target` (00_scope R11). -/
def State.jumpTo (s : State) (target : Nat) : State := { s with pc := zext16 target }

/-- `pc <- pc + 1` (10_state R26). In a state of 10_state R27 it never wraps (log entry 15). -/
def State.advance (s : State) : State := { s with pc := s.pc + 1#16 }

/-- `status <- v` (00_scope R11). -/
def State.setStatus (s : State) (v : Status) : State := { s with status := v }

/-- Decode's writes: `ir`, `opc` and `opd` from the fetched word (30_encoding R92). -/
def State.latch (s : State) (w : Word) : State :=
  { s with ir := w, opc := opcodeField w, opd := operandField w }

/-! ### The console ports -/

/-- `OutWrite(v)` (40_io R121): the value is sent, after every value sent before; the core does not wait. -/
def State.emit (s : State) (v : Int) : State := { s with output := s.output ++ [v] }

/-- The line is consumed and `status <- RUNNING` (40_io R122, R125). -/
def State.takeAnswer (s : State) (rest : List Answer) : State :=
  { s with console := rest, status := .running }

/-- The core's side of one console line (40_io R120, R122, R125): a value in the data range is taken, a malformed line and
a value outside the range are InvalidReadInput. -/
def Answer.check : Answer → Except Trap Int
  | .malformed => .error .invalidReadInput
  | .value v => if inRange v then .ok v else .error .invalidReadInput

/-- `status <- WAIT_INPUT; r <- InRead(); status <- RUNNING` and the checks on r (40_io R122, R125). Where the host has not
answered there is no r: none. Where it has, the line is consumed and the status is RUNNING again. -/
def inRead (s : State) : Option (Except Trap Int × State) :=
  match s.console with
  | [] => none
  | r :: rest => some (r.check, s.takeAnswer rest)

/-! ### Completing an instruction -/

/-- The end of an instruction's rule (10_state R26, 60_exceptions R237, R238): where its effect went through, `pc` is
advanced by one; where a check raised, the fault is entered from the state before the effect. -/
def complete (s : State) (r : Except Trap State) : Result :=
  match r with
  | .ok t => .next t.advance
  | .error k => .next (s.raise k)

end Sys2Proof.Machine
end

