-- ==== Sys2Proof/Machine/Flags.lean ====
section
/-! DEFINITION. The core has no flags (10_state R33). What other machines compute as flags are here the range check of the
ALU, which faults, and the predicates of the conditional jumps, which read the accumulator itself. -/

namespace Sys2Proof.Machine

/-- `chk(v)`: v in the data range, else ArithmeticOverflow (42_arithmetic R161). -/
def chk (v : Int) : Except Trap Int := if inRange v then .ok v else .error .arithmeticOverflow

/-- NEGATIVE: `acc < 0` (43_control R200). -/
def accNegative (s : State) : Bool := decide (sval s.acc < 0)

/-- ZERO: `acc = 0` (43_control R200). -/
def accZero (s : State) : Bool := decide (sval s.acc = 0)

/-- NOT-ZERO: `acc ≠ 0` (43_control R200). -/
def accNotZero (s : State) : Bool := decide (sval s.acc ≠ 0)

/-- GREATER-THAN-ZERO: `acc > 0` (43_control R200). -/
def accPositive (s : State) : Bool := decide (0 < sval s.acc)

end Sys2Proof.Machine
end

