-- ==== Sys2Proof/Machine/Operands.lean ====
section
/-! DEFINITION. The two operand forms that give a number (30_encoding R82, 42_arithmetic R160). -/

namespace Sys2Proof.Machine

/-- Memory form: `b = sval(MemRead(opd, 1))` (42_arithmetic R160, 20_memory R56). -/
def memoryOperand (s : State) (a : Nat) : Except Trap Int := (memRead s a).map sval

/-- Immediate form: `b = zext_16(opd)`, the operand as a non-negative integer (42_arithmetic R160, 30_encoding R82). -/
def immediateOperand (n : Nat) : Except Trap Int := .ok (n : Int)

end Sys2Proof.Machine
end

