-- ==== Sys2Proof/Machine/Arithmetic.lean ====
section
/-! DEFINITION. The ALU and the ten arithmetic instructions, opcodes 30 to 39 (42_arithmetic R160 to R179). -/

namespace Sys2Proof.Machine

/-- `tdiv(a, b)`: the quotient rounded toward zero (00_scope R10). -/
def tdiv (a b : Int) : Int := Int.tdiv a b

/-- `trem(a, b) = a − b × tdiv(a, b)` (00_scope R10). -/
def trem (a b : Int) : Int := a - b * tdiv a b

/-- The ALU's addition (42_arithmetic R162). -/
def aluAdd (a b : Int) : Except Trap Int := chk (a + b)

/-- The ALU's subtraction (42_arithmetic R162). -/
def aluSub (a b : Int) : Except Trap Int := chk (a - b)

/-- The ALU's multiplication (42_arithmetic R162). -/
def aluMul (a b : Int) : Except Trap Int := chk (a * b)

/-- The ALU's division: the zero divisor is found before the range is checked (42_arithmetic R163, R166). -/
def aluDiv (a b : Int) : Except Trap Int := if b = 0 then .error .divisionByZero else chk (tdiv a b)

/-- The ALU's remainder; it is always in range (42_arithmetic R164). -/
def aluMod (a b : Int) : Except Trap Int := if b = 0 then .error .divisionByZero else .ok (trem a b)

/-- One arithmetic instruction: the operand, then the ALU's checks, then the write of `acc` (42_arithmetic R160, R166). -/
def arith (f : Int → Int → Except Trap Int) (b : Except Trap Int) (s : State) : Result :=
  complete s ((b.bind fun v => f (sval s.acc) v).map fun r => s.setAcc r)

/-- ADD addr (42_arithmetic R170). -/
def execAdd (addr : Nat) (s : State) : Result := arith aluAdd (memoryOperand s addr) s

/-- SUB addr (42_arithmetic R171). -/
def execSub (addr : Nat) (s : State) : Result := arith aluSub (memoryOperand s addr) s

/-- DIV addr (42_arithmetic R172). -/
def execDiv (addr : Nat) (s : State) : Result := arith aluDiv (memoryOperand s addr) s

/-- MOD addr (42_arithmetic R173). -/
def execMod (addr : Nat) (s : State) : Result := arith aluMod (memoryOperand s addr) s

/-- MUL addr (42_arithmetic R174). -/
def execMul (addr : Nat) (s : State) : Result := arith aluMul (memoryOperand s addr) s

/-- ADD-IMMEDIATE val (42_arithmetic R175). -/
def execAddImmediate (val : Nat) (s : State) : Result := arith aluAdd (immediateOperand val) s

/-- SUB-IMMEDIATE val (42_arithmetic R176). -/
def execSubImmediate (val : Nat) (s : State) : Result := arith aluSub (immediateOperand val) s

/-- DIV-IMMEDIATE val (42_arithmetic R177): with a divisor above 0 the quotient is always in range (R163). -/
def execDivImmediate (val : Nat) (s : State) : Result := arith aluDiv (immediateOperand val) s

/-- MOD-IMMEDIATE val (42_arithmetic R178). -/
def execModImmediate (val : Nat) (s : State) : Result := arith aluMod (immediateOperand val) s

/-- MUL-IMMEDIATE val (42_arithmetic R179). -/
def execMulImmediate (val : Nat) (s : State) : Result := arith aluMul (immediateOperand val) s

end Sys2Proof.Machine
end

