-- ==== Sys2Proof/Machine/Control.lean ====
section
/-! DEFINITION. The jumps and HALT, opcodes 40 to 45 (43_control R200 to R207). -/

namespace Sys2Proof.Machine

/-- A conditional jump (43_control R200): to the target where the predicate holds, else on to `pc + 1`. The target is not
checked; the next fetch checks it (R206). -/
def jumpIf (c : Bool) (addr : Nat) (s : State) : Result :=
  .next (if c then s.jumpTo addr else s.advance)

/-- JUMP addr (43_control R201). -/
def execJump (addr : Nat) (s : State) : Result := .next (s.jumpTo addr)

/-- JUMP-IF-NEGATIVE addr (43_control R202). -/
def execJumpIfNegative (addr : Nat) (s : State) : Result := jumpIf (accNegative s) addr s

/-- JUMP-IF-ZERO addr (43_control R203). -/
def execJumpIfZero (addr : Nat) (s : State) : Result := jumpIf (accZero s) addr s

/-- HALT (43_control R207): `status <- HALTED`; `pc` keeps the address of the HALT. -/
def execHalt (s : State) : Result := .next (s.setStatus .halted)

/-- JUMP-IF-NOT-ZERO addr (43_control R204). -/
def execJumpIfNotZero (addr : Nat) (s : State) : Result := jumpIf (accNotZero s) addr s

/-- JUMP-IF-GREATER-THAN-ZERO addr (43_control R205). -/
def execJumpIfGreaterThanZero (addr : Nat) (s : State) : Result := jumpIf (accPositive s) addr s

end Sys2Proof.Machine
end

