-- ==== Sys2Proof/Machine/Io.lean ====
section
/-! DEFINITION. The I/O instructions, opcodes 10 to 13 (40_io R122 to R126). -/

namespace Sys2Proof.Machine

/-- READ addr (40_io R122): the line is taken, then checked, then stored. With no answer yet the core waits (R126). -/
def execRead (addr : Nat) (s : State) : Result :=
  match inRead s with
  | none => .next (s.setStatus .waitInput)
  | some (r, t) => complete t (r.bind fun v => memWrite t addr (bits16 v))

/-- WRITE addr (40_io R123): the bounds check comes before the output. -/
def execWrite (addr : Nat) (s : State) : Result :=
  complete s ((memoryOperand s addr).map fun v => s.emit v)

/-- WRITE-ACCUMULATOR (40_io R124). -/
def execWriteAccumulator (s : State) : Result := complete s (.ok (s.emit (sval s.acc)))

/-- READ-IMMEDIATE (40_io R125). With no answer yet the core waits (R126). -/
def execReadImmediate (s : State) : Result :=
  match inRead s with
  | none => .next (s.setStatus .waitInput)
  | some (r, t) => complete t (r.map fun v => t.setAcc v)

end Sys2Proof.Machine
end

