-- ==== Sys2Proof/Machine/LoadStore.lean ====
section
/-! DEFINITION. The load and store instructions, opcodes 20 to 22 (41_load_store R140 to R142). -/

namespace Sys2Proof.Machine

/-- LOAD addr (41_load_store R140): `acc <- sval(MemRead(opd, 1))`. -/
def execLoad (addr : Nat) (s : State) : Result :=
  complete s ((memoryOperand s addr).map fun v => s.setAcc v)

/-- STORE addr (41_load_store R141): `MemWrite(opd, 1, bits16(acc))`. -/
def execStore (addr : Nat) (s : State) : Result :=
  complete s (memWrite s addr (bits16 (sval s.acc)))

/-- LOAD-IMMEDIATE val (41_load_store R142): `acc <- zext_16(opd)`. -/
def execLoadImmediate (val : Nat) (s : State) : Result :=
  complete s ((immediateOperand val).map fun v => s.setAcc v)

end Sys2Proof.Machine
end

