-- ==== Sys2Proof/Machine/Dispatch.lean ====
section
/-! DEFINITION. Execute (30_encoding R93): the rule of each of the 23 instructions. -/

namespace Sys2Proof.Machine

/-- One direct call of a meaning per constructor. -/
def exec (i : Instr) (s : State) : Host.Outcome State Fault Refusal :=
  match i with
  | .read a => Sys2Proof.Machine.execRead a s
  | .write a => Sys2Proof.Machine.execWrite a s
  | .writeAccumulator => Sys2Proof.Machine.execWriteAccumulator s
  | .readImmediate => Sys2Proof.Machine.execReadImmediate s
  | .load a => Sys2Proof.Machine.execLoad a s
  | .store a => Sys2Proof.Machine.execStore a s
  | .loadImmediate n => Sys2Proof.Machine.execLoadImmediate n s
  | .add a => Sys2Proof.Machine.execAdd a s
  | .sub a => Sys2Proof.Machine.execSub a s
  | .div a => Sys2Proof.Machine.execDiv a s
  | .mod a => Sys2Proof.Machine.execMod a s
  | .mul a => Sys2Proof.Machine.execMul a s
  | .addImmediate n => Sys2Proof.Machine.execAddImmediate n s
  | .subImmediate n => Sys2Proof.Machine.execSubImmediate n s
  | .divImmediate n => Sys2Proof.Machine.execDivImmediate n s
  | .modImmediate n => Sys2Proof.Machine.execModImmediate n s
  | .mulImmediate n => Sys2Proof.Machine.execMulImmediate n s
  | .jump a => Sys2Proof.Machine.execJump a s
  | .jumpIfNegative a => Sys2Proof.Machine.execJumpIfNegative a s
  | .jumpIfZero a => Sys2Proof.Machine.execJumpIfZero a s
  | .halt => Sys2Proof.Machine.execHalt s
  | .jumpIfNotZero a => Sys2Proof.Machine.execJumpIfNotZero a s
  | .jumpIfGreaterThanZero a => Sys2Proof.Machine.execJumpIfGreaterThanZero a s

end Sys2Proof.Machine
end

