-- ==== Sys2Proof/Machine/Cycle.lean ====
section
/-! DEFINITION. The instruction cycle (30_encoding R90 to R93), the end of an input wait (40_io R126), and how an
instruction is put where the next fetch reads it. -/

namespace Sys2Proof.Machine

/-- Decode and execute the fetched word: `ir`, `opc` and `opd` are written before the opcode is checked
(30_encoding R92, R93). -/
def decodeExecute (s : State) (w : Word) : Result :=
  match decode s.cfg.opcodes w with
  | .ok i => exec i (s.latch w)
  | .error _ => .next ((s.latch w).raise .invalidOpcode)

/-- One fetch, decode and execute (30_encoding R90). A failed fetch leaves `ir`, `opc` and `opd` alone (R91). -/
def cycle (s : State) : Result :=
  match memRead s (uval s.pc) with
  | .ok w => decodeExecute s w
  | .error k => .next (s.raise k)

/-- WAIT_INPUT (40_io R126): with no answer nothing changes; with one, the READ or READ-IMMEDIATE that `ir` holds takes it.
It is not fetched again. -/
def resume (s : State) : Result :=
  match s.console with
  | [] => .next s
  | _ :: _ =>
    match decode s.cfg.opcodes s.ir with
    | .ok (.read a) => exec (.read a) s
    | .ok .readImmediate => exec .readImmediate s
    | _ => .fault .noReadPending

/-- One step of the core by its status: only RUNNING runs the cycle, only an answered WAIT_INPUT goes on, and in every other
status the core takes no step (10_state R28, 40_io R126, 43_control R208, 60_exceptions R250; log entry 8). -/
def coreStep (s : State) : Result :=
  match s.status with
  | .running => cycle s
  | .waitInput => resume s
  | .idle => .next s
  | .halted => .next s
  | .faulted => .next s

/-- The state with word `w` where the next step fetches, and the status in which it fetches: it stands for the host's load
and start (70_reset R262; log entry 11). A `pc` that no fetch can succeed at becomes 0. -/
def placeAtFetch (s : State) (w : Word) : State :=
  let p := if uval s.pc < s.cfg.memSize then s.pc else 0
  ({ s with pc := p, status := .running }).setCell (uval p) w

end Sys2Proof.Machine
end

