-- ==== Sys2Proof/Machine/Step.lean ====
section
/-! DEFINITION. The step of the machine, and the placing of an instruction at the next fetch. -/

namespace Sys2Proof.Machine

/-- One step of the core (30_encoding R90). -/
def step (s : State) : Host.Outcome State Fault Refusal := coreStep s

/-- `s` with the instruction of `nbits` bits `w` where `step` fetches next (log entry 11). -/
def State.withFetchWord (s : State) (nbits w : Nat) : State :=
  placeAtFetch s (BitVec.ofNat 16 (w % 2 ^ nbits))

end Sys2Proof.Machine
end

