-- ==== Sys2Proof/Machine/Ports.lean ====
section
/-! DEFINITION. The host's side of the block boundary (00_scope R13, 70_reset R260 to R271): reset, load, start, the console
answer, the status port and the snapshot port. -/

namespace Sys2Proof.Machine

/-- The code of a run status (10_state R28). -/
def Status.code : Status → Nat
  | .idle => 0
  | .running => 1
  | .waitInput => 2
  | .halted => 3
  | .faulted => 4

/-- The code of a fault kind (60_exceptions R230). -/
def FaultKind.code : FaultKind → Nat
  | .none => 0
  | .addressOutOfBounds => 1
  | .invalidOpcode => 2
  | .divisionByZero => 3
  | .invalidReadInput => 4
  | .arithmeticOverflow => 5
  | .nonNumericWord => 6

/-- Reset (70_reset R260): every register at its reset value, every cell as `MEM_INIT` says, a request outstanding
withdrawn, an instruction that waits abandoned. Under ARBITRARY the cells are drawn afresh (log entry 3). -/
def hostReset (s : State) : State := { State.resetWith s.cfg with epoch := s.epoch + 1 }

/-- What the load port tells the host (70_reset R263). -/
inductive LoadReply where
  /-- the cell was written -/
  | stored
  /-- a ≥ N: the write was rejected -/
  | loadError
  /-- the status is not IDLE: the port ignores writes -/
  | ignored
  deriving DecidableEq, Repr

/-- The load port (70_reset R263). -/
def hostLoad (s : State) (a : Nat) (w : Word) : LoadReply × State :=
  if s.status = .idle then
    match memWrite s a w with
    | .ok t => (.stored, t)
    | .error _ => (.loadError, s)
  else (.ignored, s)

/-- The loader's use of the load port: the words of an image at consecutive addresses from `a` up (70_reset R264). -/
def loadImageFrom (s : State) (a : Nat) : List Word → State
  | [] => s
  | w :: ws => loadImageFrom (hostLoad s a w).2 (a + 1) ws

/-- The words of an image at consecutive addresses from 0 up (70_reset R262, R264). -/
def loadImage (s : State) (ws : List Word) : State := loadImageFrom s 0 ws

/-- The start port (70_reset R265, R266). -/
def hostStart (s : State) : State := if s.status = .idle then s.setStatus .running else s

/-- The console input port (40_io R120): an answer to the outstanding request. Where none is outstanding, or the one that is
has its answer already, the answer is ignored (70_reset R260, R270; log entry 17). -/
def hostAnswer (s : State) (r : Answer) : State :=
  if s.status = .waitInput ∧ s.console = [] then { s with console := [r] } else s

/-- What the host can do to the machine (70_reset R270). -/
inductive HostAction where
  | reset
  | load (a : Nat) (w : Word)
  | start
  | answer (r : Answer)
  deriving DecidableEq, Repr

/-- One action of the host (70_reset R270). -/
def hostAct (h : HostAction) (s : State) : State :=
  match h with
  | .reset => hostReset s
  | .load a w => (hostLoad s a w).2
  | .start => hostStart s
  | .answer r => hostAnswer s r

/-- What the status port shows: the codes of 10_state R28 and 60_exceptions R230, and the fault address. -/
structure StatusView where
  status : Nat
  faultKind : Nat
  faultAddr : Word
  deriving DecidableEq, Repr

/-- The status port, readable at any time (10_state R28, 70_reset R267). -/
def readStatus (s : State) : StatusView where
  status := s.status.code
  faultKind := s.faultKind.code
  faultAddr := s.faultAddr

/-- What the snapshot port shows of the registers: each of the eight as its 16-bit pattern (70_reset R267). -/
structure Snapshot where
  acc : Word
  pc : Word
  ir : Word
  opc : Word
  opd : Word
  status : Word
  faultKind : Word
  faultAddr : Word
  deriving DecidableEq, Repr

/-- The snapshot port can be read in IDLE, HALTED and FAULTED only (70_reset R267). -/
def snapshotOpen (s : State) : Bool :=
  match s.status with
  | .idle => true
  | .halted => true
  | .faulted => true
  | .running => false
  | .waitInput => false

/-- The eight registers as 16-bit patterns: `opc` and `opd` as zero-extended integers, `status` and `fault_kind` as the
patterns of their codes (70_reset R267, 10_state R28, R29). -/
def snapshotOf (s : State) : Snapshot where
  acc := s.acc
  pc := s.pc
  ir := s.ir
  opc := zext16 s.opc
  opd := zext16 s.opd
  status := zext16 s.status.code
  faultKind := zext16 s.faultKind.code
  faultAddr := s.faultAddr

/-- The snapshot port on the registers (70_reset R267). It changes nothing. -/
def readSnapshot (s : State) : Option Snapshot := if snapshotOpen s then some (snapshotOf s) else none

/-- The snapshot port on cell `a`, for a < N (70_reset R267). It changes nothing. -/
def readSnapshotCell (s : State) (a : Nat) : Option Word :=
  if snapshotOpen s ∧ a < s.cfg.memSize then some (s.cell a) else none

end Sys2Proof.Machine
end

