-- ==== Sys2Proof/Safety.lean ====
section
/-! DEFINITION. The terms in which claims are stated: the end of a run (70_reset R268), what a run lets the host observe
(R269), the states the whole system reaches, and the invariant of the machine. -/

namespace Sys2Proof

/-- READ and READ-IMMEDIATE: the instructions that take a console answer (40_io R120, R126). -/
def Instr.takesInput (i : Instr) : Bool := [Mnemonic.read, .readImmediate].contains i.mnemonic

/-- WRITE and WRITE-ACCUMULATOR: the instructions that send a value (40_io R121, R127). -/
def Instr.sends (i : Instr) : Bool := [Mnemonic.write, .writeAccumulator].contains i.mnemonic

/-- The instructions that write the accumulator (10_state R23). -/
def Instr.writesAcc (i : Instr) : Bool :=
  [Mnemonic.readImmediate, .load, .loadImmediate, .add, .sub, .div, .mod, .mul, .addImmediate, .subImmediate,
    .divImmediate, .modImmediate, .mulImmediate].contains i.mnemonic

/-- READ and STORE: the instructions that write memory, and the cell each one writes (20_memory R55). -/
def Instr.storesAt (i : Instr) (a : Nat) : Bool := decide (i = .read a) || decide (i = .store a)

/-- The five jumps (43_control R201 to R205). -/
def Instr.jumps (i : Instr) : Bool :=
  [Mnemonic.jump, .jumpIfNegative, .jumpIfZero, .jumpIfNotZero, .jumpIfGreaterThanZero].contains i.mnemonic

/-- The instructions whose operand is a cell address they access (20_memory R55). -/
def Instr.usesMemory (i : Instr) : Bool :=
  [Mnemonic.read, .write, .load, .store, .add, .sub, .div, .mod, .mul].contains i.mnemonic

/-- The operand of an instruction as a number, 0 where it has none (30_encoding R82). -/
def Instr.number (i : Instr) : Nat :=
  match i.operand with
  | .immediate n => n
  | _ => 0

end Sys2Proof

namespace Sys2Proof.Machine

/-- The faults an instruction may raise when it executes, by the "raised by" column of 60_exceptions R230. -/
def raisedBy (i : Instr) : FaultKind → Bool
  | .none => false
  | .addressOutOfBounds => i.usesMemory
  | .invalidOpcode => false
  | .divisionByZero => [Mnemonic.div, .mod, .divImmediate, .modImmediate].contains i.mnemonic
  | .invalidReadInput => i.takesInput
  | .arithmeticOverflow =>
    [Mnemonic.add, .sub, .mul, .div, .addImmediate, .subImmediate, .mulImmediate].contains i.mnemonic
  | .nonNumericWord => false

/-- A run has ended successfully exactly when the status is HALTED (70_reset R268). -/
def EndedSuccessfully (s : State) : Prop := s.status = .halted

/-- A fault ended the run; never a successful end (70_reset R268). -/
def Aborted (s : State) : Prop := s.status = .faulted

/-- HALTED or FAULTED (00_scope R16). -/
def Stopped (s : State) : Prop := EndedSuccessfully s ∨ Aborted s

/-- The observable result of a run: the values sent in order, the final status, the final snapshot (70_reset R269). -/
structure RunResult where
  output : List Int
  status : StatusView
  registers : Option Snapshot
  cells : List (Option Word)
  deriving DecidableEq, Repr

/-- What the host can observe of a state (70_reset R269). -/
def observe (s : State) : RunResult where
  output := s.output
  status := readStatus s
  registers := readSnapshot s
  cells := (List.range s.cfg.memSize).map fun a => readSnapshotCell s a

/-- The core waits for console input and the host has not answered (40_io R126). -/
def WaitsUnanswered (s : State) : Prop := s.status = .waitInput ∧ s.console = []

/-- The states the whole system reaches from the reset state of an instance, by steps of the core and actions of the host
in any order (70_reset R270). -/
inductive Reachable (c : Config) : State → Prop where
  | reset : Reachable c (State.resetWith c)
  | core {s t : State} : Reachable c s → step s = .next t → Reachable c t
  | host {s : State} (h : HostAction) : Reachable c s → Reachable c (hostAct h s)

/-- What holds of every state of a run. -/
structure State.Inv (s : State) : Prop where
  /-- the parameters are in range (00_scope R7) -/
  config : s.cfg.wf = true
  /-- memory is in canonical form, below N (20_memory R50) -/
  memory : Memory.wf s.cfg.memSize s.unlisted s.mem = true
  /-- `pc` never exceeds max(N, 99) (10_state R27) -/
  pcBound : uval s.pc ≤ max s.cfg.memSize 99
  /-- `opc` and `opd` are the fields of `ir` (10_state R32) -/
  decoded : s.opc = opcodeField s.ir ∧ s.opd = operandField s.ir
  /-- `fault_kind` names a fault exactly in FAULTED (10_state R29) -/
  faultStatus : s.faultKind ≠ .none ↔ s.status = .faulted
  /-- `fault_addr` is 0 but on AddressOutOfBounds (10_state R30) -/
  faultAddrZero : s.faultKind ≠ .addressOutOfBounds → s.faultAddr = 0
  /-- on AddressOutOfBounds `fault_addr` failed the bounds check (10_state R30) -/
  faultAddrBad : s.faultKind = .addressOutOfBounds → s.cfg.memSize ≤ uval s.faultAddr
  /-- NonNumericWord is never raised (60_exceptions R236) -/
  noReserved : s.faultKind ≠ .nonNumericWord
  /-- in WAIT_INPUT `ir` holds the READ or READ-IMMEDIATE that waits (10_state R28) -/
  waiting : s.status = .waitInput →
    decode s.cfg.opcodes s.ir = .ok .readImmediate ∨ ∃ a, decode s.cfg.opcodes s.ir = .ok (.read a)
  /-- in WAIT_INPUT `pc` is the address of an instruction that was fetched (10_state R25, 20_memory R52) -/
  waitingPc : s.status = .waitInput → uval s.pc < s.cfg.memSize
  /-- in IDLE nothing has run since reset (10_state R28, 70_reset R263) -/
  idle : s.status = .idle → s.acc = 0 ∧ s.pc = 0 ∧ s.ir = 0 ∧ s.output = []
  /-- every value sent is in the data range (40_io R121) -/
  sent : ∀ v ∈ s.output, inRange v = true

end Sys2Proof.Machine
end

