-- ==== Sys2Proof/Certificates/Slice0/Obligations.lean ====
section
/-! DEFINITION. The statements for the provers. Each docstring names the rule it formalises. Decisions D<n> are the spec's
own, in 92_eei_decisions.md; log entries are the model's, in notes/assumptions/. -/

open Sys2Proof Sys2Proof.Machine

namespace Sys2Proof.Claims

/-! ### The terms the statements share -/

/-- −32768 ≤ v ≤ 32767 (00_scope R7). -/
abbrev InData (v : Int) : Prop := -32768 ≤ v ∧ v ≤ 32767

/-- The state after fault entry (60_exceptions R237): three registers written, nothing else changed. -/
def Faulted (s : State) (k : FaultKind) (a : Word) : State :=
  { s with status := .faulted, faultKind := k, faultAddr := a }

/-- The state after decode's writes (30_encoding R92): `ir` the word, `opc` and `opd` its decimal fields. -/
def Latched (s : State) (w : Word) : State := { s with ir := w, opc := uval w / 100, opd := uval w % 100 }

/-- Under the default map all the words `opc × 100` to `opc × 100 + 99` are the instruction `f`, with the operand digits as
its operand (30_encoding R84). -/
def Words (opc : Nat) (f : Nat → Instr) : Prop :=
  ∀ n, n < 100 → decode OpcodeAssignment.standard (BitVec.ofNat 16 (opc * 100 + n)) = .ok (f n)

/-- `t` is `s` with pattern `w` in cell `a`: that cell holds it, every other cell holds what it held, and but for memory
`t` is `u`. -/
def Stores (s t u : State) (a : Nat) (w : Word) : Prop :=
  t.cell a = w ∧ (∀ b, b ≠ a → t.cell b = s.cell b) ∧ { t with mem := u.mem } = u

/-- An arithmetic instruction with a memory operand whose only check on values is the range of the exact result
(42_arithmetic R160 to R162, R166): bounds first, then range. -/
def ExactMemoryForm (mk : Nat → Instr) (op : Int → Int → Int) : Prop :=
  ∀ (s : State) (a : Nat),
    (a < s.cfg.memSize → InData (op (sval s.acc) (sval (s.cell a))) →
      exec (mk a) s = .next { s with acc := bits16 (op (sval s.acc) (sval (s.cell a))), pc := s.pc + 1 }) ∧
    (a < s.cfg.memSize → ¬ InData (op (sval s.acc) (sval (s.cell a))) →
      exec (mk a) s = .next (Faulted s .arithmeticOverflow 0)) ∧
    (s.cfg.memSize ≤ a → exec (mk a) s = .next (Faulted s .addressOutOfBounds (BitVec.ofNat 16 a)))

/-- The same with an immediate operand (42_arithmetic R160 to R162). -/
def ExactImmediateForm (mk : Nat → Instr) (op : Int → Int → Int) : Prop :=
  ∀ (s : State) (n : Nat),
    (InData (op (sval s.acc) n) →
      exec (mk n) s = .next { s with acc := bits16 (op (sval s.acc) n), pc := s.pc + 1 }) ∧
    (¬ InData (op (sval s.acc) n) → exec (mk n) s = .next (Faulted s .arithmeticOverflow 0))

/-- The state after a jump to `a` (43_control R201). -/
def JumpedTo (s : State) (a : Nat) : State := { s with pc := BitVec.ofNat 16 a }

/-- A target of N or above faults at the next fetch, with the target as the failing address (43_control R206). -/
def FaultsAtNextFetch (s : State) (a : Nat) : Prop :=
  s.status = .running → a < 100 → s.cfg.memSize ≤ a →
    step (JumpedTo s a) = .next (Faulted (JumpedTo s a) .addressOutOfBounds (BitVec.ofNat 16 a))

/-- A conditional jump (43_control R200, R206): to the target where the predicate holds of `acc`, else to `pc + 1`; nothing
but `pc` changes; a target of N or above is found at the next fetch. -/
def JumpsWhen (mk : Nat → Instr) (p : Int → Prop) : Prop :=
  ∀ (s : State) (a : Nat),
    (p (sval s.acc) → exec (mk a) s = .next (JumpedTo s a) ∧ FaultsAtNextFetch s a) ∧
    (¬ p (sval s.acc) → exec (mk a) s = .next { s with pc := s.pc + 1 })

/-- The 23 opcodes of 30_encoding R84. -/
def opcodes : List Nat :=
  [10, 11, 12, 13, 20, 21, 22, 30, 31, 32, 33, 34, 35, 36, 37, 38, 39, 40, 41, 42, 43, 44, 45]

/-- The words of 30_encoding R86: 1000..=1399, 2000..=2299 or 3000..=4599. -/
abbrev ValidWord (w : Word) : Prop :=
  (1000 ≤ uval w ∧ uval w ≤ 1399) ∨ (2000 ≤ uval w ∧ uval w ≤ 2299) ∨ (3000 ≤ uval w ∧ uval w ≤ 4599)

/-- The core runs and its fetch reads the word `w` (30_encoding R91). -/
abbrev Fetches (s : State) (w : Word) : Prop :=
  s.status = .running ∧ uval s.pc < s.cfg.memSize ∧ s.cell (uval s.pc) = w

/-- A change of what a step answers, in its next state. -/
def mapNext (f : State → State) : Result → Result
  | .next t => .next (f t)
  | .fault e => .fault e
  | .refused e => .refused e

end Sys2Proof.Claims

open Sys2Proof.Claims

/-! ### I/O (40_io) -/

/-- READ, on the answer at the head of the console (the model's rendering of the oracle: log entries 5 and 6): taken, checked,
then stored; with no answer the core waits. The order of the checks is decision D10, the range D11. -/
def Obligations.ReadStoresTheAnswerOrFaults : Prop :=
  ∀ (s : State) (a : Nat),
    (∀ v rest, s.console = .value v :: rest → InData v → a < s.cfg.memSize →
      ∃ t, exec (.read a) s = .next t ∧
        Stores s t { s with console := rest, status := .running, pc := s.pc + 1 } a (bits16 v)) ∧
    (∀ v rest, s.console = .value v :: rest → InData v → s.cfg.memSize ≤ a →
      exec (.read a) s = .next (Faulted { s with console := rest } .addressOutOfBounds (BitVec.ofNat 16 a))) ∧
    (∀ v rest, s.console = .value v :: rest → ¬ InData v →
      exec (.read a) s = .next (Faulted { s with console := rest } .invalidReadInput 0)) ∧
    (∀ rest, s.console = .malformed :: rest →
      exec (.read a) s = .next (Faulted { s with console := rest } .invalidReadInput 0)) ∧
    (s.console = [] → exec (.read a) s = .next { s with status := .waitInput })

/-- 40_io R123. -/
def Obligations.WriteSendsTheCell : Prop :=
  Words 11 Instr.write ∧ ∀ (s : State) (a : Nat),
    (a < s.cfg.memSize →
      exec (.write a) s = .next { s with output := s.output ++ [sval (s.cell a)], pc := s.pc + 1 }) ∧
    (s.cfg.memSize ≤ a → exec (.write a) s = .next (Faulted s .addressOutOfBounds (BitVec.ofNat 16 a)))

/-- 40_io R124. -/
def Obligations.WriteAccumulatorSendsAcc : Prop :=
  Words 12 (fun _ => Instr.writeAccumulator) ∧
  encode OpcodeAssignment.standard .writeAccumulator = .ok (BitVec.ofNat 16 1200) ∧
  ∀ s : State, exec .writeAccumulator s = .next { s with output := s.output ++ [sval s.acc], pc := s.pc + 1 }

/-- READ-IMMEDIATE, on the answer at the head of the console (log entries 5 and 6); decision D11 for the range. -/
def Obligations.ReadImmediateTakesTheAnswerOrFaults : Prop :=
  ∀ s : State,
    (∀ v rest, s.console = .value v :: rest → InData v →
      exec .readImmediate s =
        .next { s with console := rest, status := .running, acc := bits16 v, pc := s.pc + 1 }) ∧
    (∀ v rest, s.console = .value v :: rest → ¬ InData v →
      exec .readImmediate s = .next (Faulted { s with console := rest } .invalidReadInput 0)) ∧
    (∀ rest, s.console = .malformed :: rest →
      exec .readImmediate s = .next (Faulted { s with console := rest } .invalidReadInput 0)) ∧
    (s.console = [] → exec .readImmediate s = .next { s with status := .waitInput })

/-- 40_io R122, through the wait of R126: with nothing answered yet a fetched READ raises its request and waits, and the
host's answer to it is taken by the next step. -/
def Obligations.ReadWaitsThenTakesTheAnswer : Prop :=
  Words 10 Instr.read ∧ ∀ (s : State) (w : Word) (a : Nat),
    Fetches s w → decode s.cfg.opcodes w = .ok (.read a) → s.console = [] →
      ∃ q, step s = .next q ∧ q = { Latched s w with status := .waitInput } ∧ step q = .next q ∧
        (∀ v, InData v → a < s.cfg.memSize →
          ∃ t, step (hostAnswer q (.value v)) = .next t ∧
            Stores s t { Latched s w with pc := s.pc + 1 } a (bits16 v)) ∧
        (∀ v, InData v → s.cfg.memSize ≤ a →
          step (hostAnswer q (.value v)) =
            .next (Faulted (Latched s w) .addressOutOfBounds (BitVec.ofNat 16 a))) ∧
        (∀ v, ¬ InData v →
          step (hostAnswer q (.value v)) = .next (Faulted (Latched s w) .invalidReadInput 0)) ∧
        step (hostAnswer q .malformed) = .next (Faulted (Latched s w) .invalidReadInput 0)

/-- 40_io R125, through the wait of R126. -/
def Obligations.ReadImmediateWaitsThenTakesTheAnswer : Prop :=
  Words 13 (fun _ => Instr.readImmediate) ∧ ∀ (s : State) (w : Word),
    Fetches s w → decode s.cfg.opcodes w = .ok .readImmediate → s.console = [] →
      ∃ q, step s = .next q ∧ q = { Latched s w with status := .waitInput } ∧ step q = .next q ∧
        (∀ v, InData v →
          step (hostAnswer q (.value v)) = .next { Latched s w with acc := bits16 v, pc := s.pc + 1 }) ∧
        (∀ v, ¬ InData v →
          step (hostAnswer q (.value v)) = .next (Faulted (Latched s w) .invalidReadInput 0)) ∧
        step (hostAnswer q .malformed) = .next (Faulted (Latched s w) .invalidReadInput 0)

/-! ### Load and store (41_load_store) -/

/-- 41_load_store R140. -/
def Obligations.LoadCopiesTheCell : Prop :=
  Words 20 Instr.load ∧ ∀ (s : State) (a : Nat),
    (a < s.cfg.memSize → exec (.load a) s = .next { s with acc := s.cell a, pc := s.pc + 1 }) ∧
    (s.cfg.memSize ≤ a → exec (.load a) s = .next (Faulted s .addressOutOfBounds (BitVec.ofNat 16 a)))

/-- 41_load_store R141. -/
def Obligations.StoreCopiesAcc : Prop :=
  Words 21 Instr.store ∧ ∀ (s : State) (a : Nat),
    (a < s.cfg.memSize →
      ∃ t, exec (.store a) s = .next t ∧ Stores s t { s with pc := s.pc + 1 } a s.acc) ∧
    (s.cfg.memSize ≤ a → exec (.store a) s = .next (Faulted s .addressOutOfBounds (BitVec.ofNat 16 a)))

/-- 41_load_store R142. -/
def Obligations.LoadImmediateSetsAcc : Prop :=
  Words 22 Instr.loadImmediate ∧ ∀ (s : State) (n : Nat),
    exec (.loadImmediate n) s = .next { s with acc := BitVec.ofNat 16 n, pc := s.pc + 1 } ∧
    (n < 100 → sval (BitVec.ofNat 16 n) = n)

/-! ### Arithmetic (42_arithmetic) -/

/-- 42_arithmetic R170; overflow faults by decision D3. -/
def Obligations.AddIsExactOrFaults : Prop :=
  Words 30 Instr.add ∧ ExactMemoryForm Instr.add (fun x y => x + y)

/-- 42_arithmetic R171; overflow faults by decision D3. -/
def Obligations.SubIsExactOrFaults : Prop :=
  Words 31 Instr.sub ∧ ExactMemoryForm Instr.sub (fun x y => x - y)

/-- 42_arithmetic R172: the one quotient outside the range is that of −32768 by −1. -/
def Obligations.DivTruncatesOrFaults : Prop :=
  Words 32 Instr.div ∧ ∀ (s : State) (a : Nat),
    (a < s.cfg.memSize → sval (s.cell a) ≠ 0 → ¬ (sval s.acc = -32768 ∧ sval (s.cell a) = -1) →
      exec (.div a) s =
        .next { s with acc := bits16 (Int.tdiv (sval s.acc) (sval (s.cell a))), pc := s.pc + 1 }) ∧
    (a < s.cfg.memSize → sval (s.cell a) = 0 → exec (.div a) s = .next (Faulted s .divisionByZero 0)) ∧
    (a < s.cfg.memSize → sval s.acc = -32768 → sval (s.cell a) = -1 →
      exec (.div a) s = .next (Faulted s .arithmeticOverflow 0)) ∧
    (s.cfg.memSize ≤ a → exec (.div a) s = .next (Faulted s .addressOutOfBounds (BitVec.ofNat 16 a)))

/-- 42_arithmetic R173. -/
def Obligations.ModKeepsTheSignOrFaults : Prop :=
  Words 33 Instr.mod ∧ ∀ (s : State) (a : Nat),
    (a < s.cfg.memSize → sval (s.cell a) ≠ 0 →
      exec (.mod a) s =
        .next { s with acc := bits16 (Int.tmod (sval s.acc) (sval (s.cell a))), pc := s.pc + 1 } ∧
      InData (Int.tmod (sval s.acc) (sval (s.cell a)))) ∧
    (a < s.cfg.memSize → sval (s.cell a) = 0 → exec (.mod a) s = .next (Faulted s .divisionByZero 0)) ∧
    (s.cfg.memSize ≤ a → exec (.mod a) s = .next (Faulted s .addressOutOfBounds (BitVec.ofNat 16 a)))

/-- 42_arithmetic R174; overflow faults by decision D3. -/
def Obligations.MulIsExactOrFaults : Prop :=
  Words 34 Instr.mul ∧ ExactMemoryForm Instr.mul (fun x y => x * y)

/-- 42_arithmetic R175; overflow faults by decision D3. -/
def Obligations.AddImmediateIsExactOrFaults : Prop :=
  Words 35 Instr.addImmediate ∧ ExactImmediateForm Instr.addImmediate (fun x y => x + y)

/-- 42_arithmetic R176; overflow faults by decision D3. -/
def Obligations.SubImmediateIsExactOrFaults : Prop :=
  Words 36 Instr.subImmediate ∧ ExactImmediateForm Instr.subImmediate (fun x y => x - y)

/-- 42_arithmetic R177: no overflow, since the divisor is positive. -/
def Obligations.DivImmediateTruncatesOrFaults : Prop :=
  Words 37 Instr.divImmediate ∧ ∀ (s : State) (n : Nat),
    (n ≠ 0 →
      exec (.divImmediate n) s = .next { s with acc := bits16 (Int.tdiv (sval s.acc) n), pc := s.pc + 1 } ∧
      InData (Int.tdiv (sval s.acc) n)) ∧
    (n = 0 → exec (.divImmediate n) s = .next (Faulted s .divisionByZero 0))

/-- 42_arithmetic R178. -/
def Obligations.ModImmediateKeepsTheSignOrFaults : Prop :=
  Words 38 Instr.modImmediate ∧ ∀ (s : State) (n : Nat),
    (n ≠ 0 →
      exec (.modImmediate n) s = .next { s with acc := bits16 (Int.tmod (sval s.acc) n), pc := s.pc + 1 } ∧
      InData (Int.tmod (sval s.acc) n)) ∧
    (n = 0 → exec (.modImmediate n) s = .next (Faulted s .divisionByZero 0))

/-- 42_arithmetic R179; overflow faults by decision D3. -/
def Obligations.MulImmediateIsExactOrFaults : Prop :=
  Words 39 Instr.mulImmediate ∧ ExactImmediateForm Instr.mulImmediate (fun x y => x * y)

/-- DIV and MOD fit together (00_scope R10, 42_arithmetic R163 to R165): quotient × divisor + remainder = accumulator, the
remainder smaller than the divisor and zero or of the accumulator's sign. This pins both results. -/
def Obligations.QuotientAndRemainderFit : Prop :=
  ∀ (s : State) (a : Nat), a < s.cfg.memSize → sval (s.cell a) ≠ 0 →
    ¬ (sval s.acc = -32768 ∧ sval (s.cell a) = -1) →
      ∃ t u, exec (.div a) s = .next t ∧ exec (.mod a) s = .next u ∧
        sval t.acc * sval (s.cell a) + sval u.acc = sval s.acc ∧
        (sval u.acc).natAbs < (sval (s.cell a)).natAbs ∧
        (sval u.acc = 0 ∨ (0 < sval u.acc ↔ 0 < sval s.acc))

/-! ### Control (43_control) -/

/-- 43_control R201; the target is not checked, by decision D7. -/
def Obligations.JumpSetsPc : Prop :=
  Words 40 Instr.jump ∧
  ∀ (s : State) (a : Nat), exec (.jump a) s = .next (JumpedTo s a) ∧ FaultsAtNextFetch s a

/-- 43_control R202; the target is not checked, by decision D7. -/
def Obligations.JumpIfNegativeTestsAcc : Prop :=
  Words 41 Instr.jumpIfNegative ∧ JumpsWhen Instr.jumpIfNegative (fun v => v < 0)

/-- 43_control R203; the target is not checked, by decision D7. -/
def Obligations.JumpIfZeroTestsAcc : Prop :=
  Words 42 Instr.jumpIfZero ∧ JumpsWhen Instr.jumpIfZero (fun v => v = 0)

/-- 43_control R204; the target is not checked, by decision D7. -/
def Obligations.JumpIfNotZeroTestsAcc : Prop :=
  Words 44 Instr.jumpIfNotZero ∧ JumpsWhen Instr.jumpIfNotZero (fun v => v ≠ 0)

/-- 43_control R205; the target is not checked, by decision D7. -/
def Obligations.JumpIfGreaterThanZeroTestsAcc : Prop :=
  Words 45 Instr.jumpIfGreaterThanZero ∧ JumpsWhen Instr.jumpIfGreaterThanZero (fun v => 0 < v)

/-- 43_control R207; that `pc` stays is decision D8, that the snapshot is the state left in place is D24. -/
def Obligations.HaltChangesOnlyStatus : Prop :=
  Words 43 (fun _ => Instr.halt) ∧
  encode OpcodeAssignment.standard .halt = .ok (BitVec.ofNat 16 4300) ∧
  ∀ s : State, exec .halt s = .next { s with status := .halted } ∧
    readSnapshot { s with status := .halted } =
      some { acc := s.acc, pc := s.pc, ir := s.ir, opc := BitVec.ofNat 16 s.opc, opd := BitVec.ofNat 16 s.opd,
             status := 3, faultKind := BitVec.ofNat 16 s.faultKind.code, faultAddr := s.faultAddr }

/-! ### The instruction cycle and the encodings (30_encoding) -/

/-- A running core whose fetched word decodes to an instruction executes that instruction, on the state in which decode has
written `ir`, `opc` and `opd` (30_encoding R90, R92, R93). -/
def Obligations.StepRunsTheDecodedInstruction : Prop :=
  ∀ (s : State) (w : Word) (i : Instr), Fetches s w → decode s.cfg.opcodes w = .ok i →
    step s = exec i (Latched s w)

/-- 30_encoding R91; that a failed fetch writes none of `ir`, `opc`, `opd` is decision D9. -/
def Obligations.FetchChecksThePc : Prop :=
  ∀ s : State, s.status = .running →
    (s.cfg.memSize ≤ uval s.pc → step s = .next (Faulted s .addressOutOfBounds s.pc)) ∧
    (uval s.pc < s.cfg.memSize → ∀ t, step s = .next t → t.ir = s.cell (uval s.pc))

/-- 30_encoding R92; that the three registers are written before the check is decision D9. -/
def Obligations.DecodeLatchesThenChecksTheOpcode : Prop :=
  ∀ (s : State) (w : Word), Fetches s w →
    (∀ t, step s = .next t → t.ir = w ∧ t.opc = uval w / 100 ∧ t.opd = uval w % 100) ∧
    (uval w / 100 ∉ opcodes → step s = .next (Faulted (Latched s w) .invalidOpcode 0))

/-- Words of 95_test_vectors L2.1 and L1, decoded under the default map; numbers as spec/opcode_table.json gives them. -/
def Obligations.KnownWordsDecode : Prop :=
  decodeTableWord 16 999 = none ∧ decodeTableWord 16 1000 = some (.read 0) ∧
  decodeTableWord 16 1109 = some (.write 9) ∧ decodeTableWord 16 1399 = some .readImmediate ∧
  decodeTableWord 16 1400 = none ∧ decodeTableWord 16 2104 = some (.store 4) ∧
  decodeTableWord 16 2299 = some (.loadImmediate 99) ∧ decodeTableWord 16 2999 = none ∧
  decodeTableWord 16 3000 = some (.add 0) ∧ decodeTableWord 16 3505 = some (.addImmediate 5) ∧
  decodeTableWord 16 4357 = some .halt ∧
  decodeTableWord 16 4599 = some (.jumpIfGreaterThanZero 99) ∧
  decodeTableWord 16 4600 = none ∧ decodeTableWord 16 65535 = none

/-- 30_encoding R105, for instructions, under every opcode assignment R85 allows: decode of encode of i is i. -/
def Obligations.DecodeOfEncodeIsTheInstruction : Prop :=
  ∀ (a : OpcodeAssignment) (i : Instr), a.wf = true → i.wf = true →
    ∃ w, encode a i = .ok w ∧ decode a w = .ok i

/-- 30_encoding R102, R105: the encoder's word is `op(m) × 100 + n`, lies in 1000..=4599, and decodes to the mnemonic and
the operand digits it was given; with no operand the digits are 0. -/
def Obligations.EncoderWordsDecodeBack : Prop :=
  ∀ (a : OpcodeAssignment) (m : Mnemonic) (n : Nat), a.wf = true → n < 100 →
    ∃ w, encoderBlock a m (.immediate n) = .ok w ∧ uval w = a.number m * 100 + n ∧
      1000 ≤ uval w ∧ uval w ≤ 4599 ∧ decodeFields a w = .ok (m, n) ∧
      (n = 0 → encoderBlock a m .none = .ok w)

/-- The other direction: a word that decodes is the word the encoder gives for its mnemonic and digits, so no two words
have the same fields (30_encoding R81, R105). -/
def Obligations.EncoderInvertsDecode : Prop :=
  ∀ (a : OpcodeAssignment) (w : Word) (m : Mnemonic) (n : Nat), a.wf = true →
    decodeFields a w = .ok (m, n) → encoderBlock a m (.immediate n) = .ok w ∧ n < 100

/-- 30_encoding R103, R104; that an operand of 100 or more is rejected is decision D5. -/
def Obligations.EncoderRejectsByName : Prop :=
  ∀ (a : OpcodeAssignment) (m : Mnemonic),
    (∀ n, 100 ≤ n → encoderBlock a m (.immediate n) = .error .operandOutOfRange) ∧
    (∀ x, encoderBlock a m (.labelName x) = .error .unresolvedLabel) ∧
    (∀ x, encoderBlock a m (.variableName x) = .error .unresolvedVariable)

/-- 30_encoding R86, R87: the valid words are the same under every allowed assignment, and every other word is refused with
its opcode. -/
def Obligations.ValidWordsAreTheTablesRanges : Prop :=
  ∀ (a : OpcodeAssignment) (w : Word), a.wf = true →
    ((∃ i, decode a w = .ok i) ↔ ValidWord w) ∧
    (¬ ValidWord w → decode a w = .error (.invalidOpcode (uval w / 100)))

/-! ### Memory and words -/

/-- 00_scope R9. -/
def Obligations.WordReadings : Prop :=
  (∀ w : Word, uval w < 65536 ∧ InData (sval w) ∧
    (uval w < 32768 → sval w = uval w) ∧ (32768 ≤ uval w → sval w = (uval w : Int) - 65536)) ∧
  (∀ v : Int, InData v → (uval (bits16 v) : Int) = v % 65536 ∧ sval (bits16 v) = v) ∧
  (∀ n : Nat, n < 65536 → uval (zext16 n) = n)

/-- 20_memory R52, R53. -/
def Obligations.MemoryInterfaceReadsAndWrites : Prop :=
  ∀ (s : State) (a : Nat) (w : Word),
    (a < s.cfg.memSize → memRead s a = .ok (s.cell a) ∧
      ∃ t, memWrite s a w = .ok t ∧ Stores s t s a w ∧ memRead t a = .ok w) ∧
    (s.cfg.memSize ≤ a →
      memRead s a = .error (.addressOutOfBounds a) ∧ memWrite s a w = .error (.addressOutOfBounds a))

/-- Two memories in canonical form whose cells read the same are the same data (20_memory R50; log entry 2). -/
def Obligations.CanonicalMemoryIsUnique : Prop :=
  ∀ (n : Nat) (d : Nat → Word) (m m' : Memory), Memory.wf n d m = true → Memory.wf n d m' = true →
    (∀ a, Memory.read d m a = Memory.read d m' a) → m = m'

/-! ### The invariant of the machine -/

/-- The invariant holds right after reset, with the default parameters and with any allowed ones (10_state R37). -/
def Obligations.ResetMeetsTheInvariant : Prop :=
  State.reset.Inv ∧ ∀ c : Config, c.wf = true → (State.resetWith c).Inv

/-- Every step of the core keeps the invariant: memory canonical and below N, `pc` at most max(N, 99), `opc` and `opd` the
fields of `ir`, the fault registers in step with the status (10_state R27 to R32). -/
def Obligations.StepKeepsTheInvariant : Prop :=
  ∀ s t : State, s.Inv → step s = .next t → t.Inv

/-- Every action of the host keeps the invariant (70_reset R260 to R271). -/
def Obligations.HostActionsKeepTheInvariant : Prop :=
  ∀ (h : HostAction) (s : State), s.Inv → (hostAct h s).Inv

/-- Whatever the host does and whatever the core runs, the system stays in the invariant and on its own parameters
(10_state R21, R27). -/
def Obligations.EveryReachableStateMeetsTheInvariant : Prop :=
  ∀ (c : Config) (s : State), c.wf = true → Reachable c s → s.Inv ∧ s.cfg = c

/-- From a state of the invariant the core always steps to a next state: nothing it can execute is refused, and no fault of
the core ends the model's run (60_exceptions R237; log entries 8 and 9). -/
def Obligations.EveryStepAnswersANextState : Prop :=
  ∀ s : State, s.Inv → ∃ t, step s = .next t

/-! ### Rules over all instructions -/

/-- 10_state R26; HALT and the faults by decision D8. -/
def Obligations.PcAdvancesByOneOrJumps : Prop :=
  ∀ (i : Instr) (s t : State), i.wf = true → s.status = .running ∨ s.status = .waitInput → exec i s = .next t →
    (i.jumps = false → t.status = .running → t.pc = s.pc + 1) ∧
    (t.status = .faulted → t.pc = s.pc) ∧
    (t.status = .halted → t.pc = s.pc) ∧
    (∀ a, i = .jump a → t.pc = BitVec.ofNat 16 a) ∧
    (∀ a, i = .jumpIfNegative a → t.pc = if sval s.acc < 0 then BitVec.ofNat 16 a else s.pc + 1) ∧
    (∀ a, i = .jumpIfZero a → t.pc = if sval s.acc = 0 then BitVec.ofNat 16 a else s.pc + 1) ∧
    (∀ a, i = .jumpIfNotZero a → t.pc = if sval s.acc ≠ 0 then BitVec.ofNat 16 a else s.pc + 1) ∧
    (∀ a, i = .jumpIfGreaterThanZero a → t.pc = if 0 < sval s.acc then BitVec.ofNat 16 a else s.pc + 1)

/-- The frame of every instruction (10_state R23, 20_memory R55, 40_io R127): `acc` is written only by the instructions R23
names, a cell only by READ and STORE at their own address and never above 99, the output only by WRITE and
WRITE-ACCUMULATOR, the console's answers taken only by READ and READ-IMMEDIATE, the fault registers written only by a fault,
and the status only by HALT, READ, READ-IMMEDIATE and a fault. -/
def Obligations.EveryInstructionKeepsItsFrame : Prop :=
  ∀ (i : Instr) (s t : State), i.wf = true → exec i s = .next t →
    (i.writesAcc = false → t.acc = s.acc) ∧
    (∀ a, i.storesAt a = false → t.cell a = s.cell a) ∧
    (∀ a, 100 ≤ a → t.cell a = s.cell a) ∧
    (i.sends = false → t.output = s.output) ∧
    (i.takesInput = false → t.console = s.console) ∧
    (t.status ≠ .faulted → t.faultKind = s.faultKind ∧ t.faultAddr = s.faultAddr) ∧
    (i ≠ .halt → i.takesInput = false → t.status = s.status ∨ t.status = .faulted) ∧
    t.cfg = s.cfg ∧ t.ir = s.ir ∧ t.opc = s.opc ∧ t.opd = s.opd ∧ t.epoch = s.epoch

/-- Which fault an instruction can report (60_exceptions R230, R231, R239): only one its row names, and with N of 100 or more
no instruction's operand is out of bounds. -/
def Obligations.FaultsAreTheOnesTheTableNames : Prop :=
  ∀ (i : Instr) (s t : State), i.wf = true → s.status ≠ .faulted → exec i s = .next t → t.status = .faulted →
    raisedBy i t.faultKind = true ∧
    (100 ≤ s.cfg.memSize → t.faultKind ≠ .addressOutOfBounds) ∧
    (t.faultKind = .addressOutOfBounds → t.faultAddr = BitVec.ofNat 16 i.number ∧ s.cfg.memSize ≤ i.number)

/-- 60_exceptions R237: the three registers fault entry writes; and for every step that faults: but for those three, what
decode wrote and the console line taken, the state is the one before it. The failing address is `pc` where the fetch faults,
else the operand. -/
def Obligations.FaultEntryChangesNothingElse : Prop :=
  (∀ (s : State) (k : Trap), s.raise k = Faulted s k.kind
    (match k with
      | .addressOutOfBounds a => BitVec.ofNat 16 a
      | .invalidOpcode | .divisionByZero | .invalidReadInput | .arithmeticOverflow => 0)) ∧
  ∀ s t : State, s.status ≠ .faulted → step s = .next t → t.status = .faulted →
    { t with status := s.status, faultKind := s.faultKind, faultAddr := s.faultAddr,
             ir := s.ir, opc := s.opc, opd := s.opd, console := s.console } = s ∧
    t.faultKind ≠ .none ∧
    (t.faultKind ≠ .addressOutOfBounds → t.faultAddr = 0) ∧
    (t.faultKind = .addressOutOfBounds → s.cfg.memSize ≤ uval t.faultAddr ∧
      uval t.faultAddr =
        if s.status = .running ∧ s.cfg.memSize ≤ uval s.pc then uval s.pc else uval t.ir % 100) ∧
    (s.status = .running → uval s.pc < s.cfg.memSize →
      t.ir = s.cell (uval s.pc) ∧ t.opc = uval t.ir / 100 ∧ t.opd = uval t.ir % 100) ∧
    (s.status = .running → s.cfg.memSize ≤ uval s.pc → t.ir = s.ir ∧ t.opc = s.opc ∧ t.opd = s.opd)

/-- No program can observe `ir`, `opc` or `opd` (10_state R32, R35): execution commutes with any change of them. -/
def Obligations.ExecutionIgnoresTheDecodedRegisters : Prop :=
  ∀ (i : Instr) (s : State) (x : Word) (y z : Nat),
    exec i { s with ir := x, opc := y, opd := z } =
      mapNext (fun t => { t with ir := x, opc := y, opd := z }) (exec i s)

/-- A value sent is never taken back, and a step sends at most one, after all before it (40_io R121, 70_reset R274). -/
def Obligations.OutputOnlyGrows : Prop :=
  ∀ s t : State, step s = .next t → t.output = s.output ∨ ∃ v, InData v ∧ t.output = s.output ++ [v]

/-- A word stored into the next cell is what executes next (20_memory R65, 70_reset R273). -/
def Obligations.StoredWordExecutesNext : Prop :=
  ∀ (s : State) (w : Word) (j : Instr), s.cfg.memSize ≤ 65535 → Fetches s w →
    decode s.cfg.opcodes w = .ok (.store (uval s.pc + 1)) → uval s.pc + 1 < s.cfg.memSize →
    decode s.cfg.opcodes s.acc = .ok j →
      ∃ t, step s = .next t ∧ t.pc = s.pc + 1 ∧ step t = exec j (Latched t s.acc)

/-! ### Runs -/

/-- 30_encoding R95: a step that ends a run executed HALT or raised a fault. -/
def Obligations.OnlyHaltAndFaultsEndARun : Prop :=
  ∀ s t : State, ¬ Stopped s → step s = .next t → Stopped t →
    (EndedSuccessfully t ∧ s.status = .running ∧ uval s.pc < s.cfg.memSize ∧
      decode s.cfg.opcodes (s.cell (uval s.pc)) = .ok .halt) ∨
    (Aborted t ∧ t.faultKind ≠ .none)

/-- Halt finality (43_control.md, Halt; for FAULTED 60_exceptions.md, Fault entry; decision D22): a stopped core stays as it is
for any number of steps, no action of the host but reset changes it, and reset leaves it IDLE. That an answer to a stopped
core is ignored is the model's reading (log entry 17, DEDUCED). -/
def Obligations.AStoppedCoreStaysStopped : Prop :=
  ∀ s : State, Stopped s →
    (∀ k, Host.Core.run Sys2Proof.core k s = .next s) ∧
    (∀ h : HostAction, h ≠ .reset → hostAct h s = s) ∧
    (hostAct .reset s).status = .idle

/-- An input request that is never answered is a hang: for any number of steps nothing changes, and only an answer or a reset
ends it (40_io R126, 70_reset R276). -/
def Obligations.AnUnansweredWaitNeverEnds : Prop :=
  ∀ s : State, WaitsUnanswered s →
    (∀ k, Host.Core.run Sys2Proof.core k s = .next s) ∧
    (∀ h : HostAction, hostAct h s ≠ s → h = .reset ∨ ∃ r, h = .answer r)

/-- A jump to its own address is a hang, not a fault and not an end of run (43_control R206, 70_reset R276): for any number
of steps the core runs on at that address and nothing but the decoded registers changes. -/
def Obligations.AJumpToItselfNeverEnds : Prop :=
  ∀ (s : State) (w : Word), Fetches s w → decode s.cfg.opcodes w = .ok (.jump (uval s.pc)) →
    ∀ k, Host.Core.run Sys2Proof.core (k + 1) s = .next (Latched s w)

/-! ### The host's ports (70_reset) -/

/-- Reset (10_state.md, Reset values; 70_reset_and_hazards.md, Reset): every register, every cell (0 under ZERO, a free value
under ARBITRARY), no request, no output, and an answer given after the reset ignored. The free value and the counter of
resets it depends on (log entry 3), and the emptied record of the output (log entry 7), are the model's own choice. -/
def Obligations.ResetSetsEverything : Prop :=
  (∀ s : State,
    hostReset s =
      { cfg := s.cfg, acc := 0, pc := 0, ir := 0, opc := 0, opd := 0, status := .idle, faultKind := .none,
        faultAddr := 0, mem := [], console := [], output := [], epoch := s.epoch + 1 } ∧
    (∀ a, s.cfg.memInit = .zero → (hostReset s).cell a = 0) ∧
    (∀ a, s.cfg.memInit = .arbitrary → (hostReset s).cell a = Config.arbitraryCell (s.epoch + 1) a) ∧
    (∀ r, hostAnswer (hostReset s) r = hostReset s)) ∧
  State.reset.acc = 0 ∧ State.reset.pc = 0 ∧ State.reset.ir = 0 ∧ State.reset.opc = 0 ∧ State.reset.opd = 0 ∧
  State.reset.status = .idle ∧ State.reset.faultKind = .none ∧ State.reset.faultAddr = 0 ∧
  State.reset.cfg.memSize = 100 ∧ ∀ a, State.reset.cell a = 0

/-- The load port (70_reset_and_hazards.md, "Load port. While `status = IDLE`, ..."; a bad address is rejected by decision
D19). The names of the replies, and that there is a reply `stored` and a reply `ignored`, are the model's own choice (log
entry 18): the spec gives only the load error. -/
def Obligations.LoadPortWritesOnlyInIdle : Prop :=
  ∀ (s : State) (a : Nat) (w : Word),
    (s.status = .idle → a < s.cfg.memSize →
      ∃ t, hostLoad s a w = (.stored, t) ∧ Stores s t s a w) ∧
    (s.status = .idle → s.cfg.memSize ≤ a → hostLoad s a w = (.loadError, s)) ∧
    (s.status ≠ .idle → hostLoad s a w = (.ignored, s))

/-- 70_reset R264: in IDLE an image lies at consecutive addresses from 0, cut off at N, and nothing else changes. -/
def Obligations.ImageLiesFromAddressZero : Prop :=
  ∀ (s : State) (ws : List Word), s.status = .idle →
    (∀ k, k < s.cfg.memSize → (h : k < ws.length) → (loadImage s ws).cell k = ws[k]) ∧
    (∀ a, ws.length ≤ a ∨ s.cfg.memSize ≤ a → (loadImage s ws).cell a = s.cell a) ∧
    { loadImage s ws with mem := s.mem } = s

/-- 70_reset R265 and the first sentence of R266: nothing runs in IDLE; start begins the instruction cycle at `pc`, 0 after
reset; in any other status it does nothing. -/
def Obligations.StartWorksOnlyInIdle : Prop :=
  ∀ s : State,
    (s.status = .idle → step s = .next s ∧ hostStart s = { s with status := .running } ∧
      ∀ i, uval s.pc < s.cfg.memSize → decode s.cfg.opcodes (s.cell (uval s.pc)) = .ok i →
        step (hostStart s) = exec i (Latched { s with status := .running } (s.cell (uval s.pc)))) ∧
    (hostReset s).pc = 0 ∧
    (s.status ≠ .idle → hostStart s = s)

/-- 70_reset R267, each register as its 16-bit pattern, with the status codes of 10_state R28 and the fault codes of 60_exceptions R230. -/
def Obligations.SnapshotPortShowsTheState : Prop :=
  (∀ s : State,
    (s.status = .idle ∨ s.status = .halted ∨ s.status = .faulted →
      readSnapshot s = some { acc := s.acc, pc := s.pc, ir := s.ir, opc := BitVec.ofNat 16 s.opc,
                              opd := BitVec.ofNat 16 s.opd, status := BitVec.ofNat 16 s.status.code,
                              faultKind := BitVec.ofNat 16 s.faultKind.code, faultAddr := s.faultAddr } ∧
      (∀ a, a < s.cfg.memSize → readSnapshotCell s a = some (s.cell a)) ∧
      (∀ a, s.cfg.memSize ≤ a → readSnapshotCell s a = none)) ∧
    (s.status = .running ∨ s.status = .waitInput → readSnapshot s = none ∧ ∀ a, readSnapshotCell s a = none) ∧
    readStatus s = { status := s.status.code, faultKind := s.faultKind.code, faultAddr := s.faultAddr }) ∧
  [Status.idle, .running, .waitInput, .halted, .faulted].map Status.code = [0, 1, 2, 3, 4] ∧
  [FaultKind.none, .addressOutOfBounds, .invalidOpcode, .divisionByZero, .invalidReadInput, .arithmeticOverflow,
    .nonNumericWord].map FaultKind.code = [0, 1, 2, 3, 4, 5, 6]

/-- During a run the host's only influence is the console answers and reset (70_reset_and_hazards.md, "Its only influence on a
run is the console answers and reset"). That an answer in RUNNING, which no request asked for, is ignored is the model's
reading (log entry 17, DEDUCED). -/
def Obligations.HostCannotTouchARun : Prop :=
  ∀ (h : HostAction) (s : State), h ≠ .reset →
    (s.status = .running → hostAct h s = s) ∧
    (s.status = .waitInput → { hostAct h s with console := s.console } = s ∧
      ((hostAct h s).console = s.console ∨ ∃ r, h = .answer r ∧ (hostAct h s).console = [r]))
end

