-- ==== Sys2Proof/Laws/Decode.lean ====
section
/-! SUPPORT. The opcode map and its inverse, and what the decoder gives. -/

namespace Sys2Proof

variable {a : OpcodeAssignment}

/-- The four lists of an allowed assignment are permutations of their groups (30_encoding R85). -/
theorem OpcodeAssignment.wf_iff : a.wf = true ↔
    a.io.Perm Mnemonic.ioGroup ∧ a.memory.Perm Mnemonic.memoryGroup ∧
      a.memArith.Perm Mnemonic.memArithGroup ∧ a.immArith.Perm Mnemonic.immArithGroup := by
  simp [OpcodeAssignment.wf, List.isPerm_iff, and_assoc]

/-- A list that is a permutation of a group: the position of a member, and its member back. -/
theorem idxOf_of_perm {l g : List Mnemonic} {m : Mnemonic} (h : l.Perm g) (hm : m ∈ g) :
    l.idxOf m < g.length ∧ l[l.idxOf m]? = some m := by
  have hl : m ∈ l := h.mem_iff.2 hm
  have hi := List.idxOf_lt_length_iff.2 hl
  exact ⟨h.length_eq ▸ hi, by rw [List.getElem?_eq_getElem hi, List.getElem_idxOf]⟩

theorem idxOf_getElem_of_perm {l g : List Mnemonic} {m : Mnemonic} {k : Nat} (h : l.Perm g) (hg : g.Nodup)
    (hk : l[k]? = some m) : l.idxOf m = k ∧ m ∈ g := by
  obtain ⟨hlt, rfl⟩ := List.getElem?_eq_some_iff.1 hk
  exact ⟨(h.nodup_iff.2 hg).idxOf_getElem k hlt, h.mem_iff.1 (List.getElem_mem hlt)⟩

/-! ### The four ranges whose order is a parameter -/

theorem OpcodeAssignment.mnemonicOf_io {k : Nat} (h : k < 4) : a.mnemonicOf (10 + k) = a.io[k]? := by
  rw [OpcodeAssignment.mnemonicOf, if_pos (by omega), Nat.add_sub_cancel_left]

theorem OpcodeAssignment.mnemonicOf_memory {k : Nat} (h : k < 3) : a.mnemonicOf (20 + k) = a.memory[k]? := by
  rw [OpcodeAssignment.mnemonicOf, if_neg (by omega), if_pos (by omega), Nat.add_sub_cancel_left]

theorem OpcodeAssignment.mnemonicOf_memArith {k : Nat} (h : k < 5) :
    a.mnemonicOf (30 + k) = a.memArith[k]? := by
  rw [OpcodeAssignment.mnemonicOf, if_neg (by omega), if_neg (by omega), if_pos (by omega),
    Nat.add_sub_cancel_left]

theorem OpcodeAssignment.mnemonicOf_immArith {k : Nat} (h : k < 5) :
    a.mnemonicOf (35 + k) = a.immArith[k]? := by
  rw [OpcodeAssignment.mnemonicOf, if_neg (by omega), if_neg (by omega), if_neg (by omega), if_pos (by omega),
    Nat.add_sub_cancel_left]

theorem OpcodeAssignment.number_io {m : Mnemonic} (h : m ∈ Mnemonic.ioGroup) :
    a.number m = 10 + a.io.idxOf m := by
  revert h; cases m <;> simp [Mnemonic.ioGroup, OpcodeAssignment.number]

theorem OpcodeAssignment.number_memory {m : Mnemonic} (h : m ∈ Mnemonic.memoryGroup) :
    a.number m = 20 + a.memory.idxOf m := by
  revert h; cases m <;> simp [Mnemonic.memoryGroup, OpcodeAssignment.number]

theorem OpcodeAssignment.number_memArith {m : Mnemonic} (h : m ∈ Mnemonic.memArithGroup) :
    a.number m = 30 + a.memArith.idxOf m := by
  revert h; cases m <;> simp [Mnemonic.memArithGroup, OpcodeAssignment.number]

theorem OpcodeAssignment.number_immArith {m : Mnemonic} (h : m ∈ Mnemonic.immArithGroup) :
    a.number m = 35 + a.immArith.idxOf m := by
  revert h; cases m <;> simp [Mnemonic.immArithGroup, OpcodeAssignment.number]

/-- Every mnemonic is in one of the four groups, or has one of the six settled numbers (30_encoding R85). -/
theorem OpcodeAssignment.group_cases (a : OpcodeAssignment) (m : Mnemonic) :
    m ∈ Mnemonic.ioGroup ∨ m ∈ Mnemonic.memoryGroup ∨ m ∈ Mnemonic.memArithGroup ∨
      m ∈ Mnemonic.immArithGroup ∨
      (40 ≤ a.number m ∧ a.number m ≤ 45 ∧ a.mnemonicOf (a.number m) = some m) := by
  cases m <;> simp [OpcodeAssignment.number, Mnemonic.ioGroup, Mnemonic.memoryGroup,
    Mnemonic.memArithGroup, Mnemonic.immArithGroup, OpcodeAssignment.mnemonicOf]

/-- Every mnemonic's number is one of the 23 opcodes and maps back to the mnemonic (30_encoding R84, R101). -/
theorem OpcodeAssignment.mnemonicOf_number (h : a.wf = true) (m : Mnemonic) :
    a.mnemonicOf (a.number m) = some m ∧ 10 ≤ a.number m ∧ a.number m ≤ 45 := by
  obtain ⟨h1, h2, h3, h4⟩ := OpcodeAssignment.wf_iff.1 h
  rcases a.group_cases m with hm | hm | hm | hm | ⟨h5, h6, h7⟩
  · obtain ⟨hk, hg⟩ := idxOf_of_perm h1 hm
    have hk : a.io.idxOf m < 4 := hk
    rw [OpcodeAssignment.number_io hm, OpcodeAssignment.mnemonicOf_io hk, hg]; exact ⟨rfl, by omega, by omega⟩
  · obtain ⟨hk, hg⟩ := idxOf_of_perm h2 hm
    have hk : a.memory.idxOf m < 3 := hk
    rw [OpcodeAssignment.number_memory hm, OpcodeAssignment.mnemonicOf_memory hk, hg]; exact ⟨rfl, by omega, by omega⟩
  · obtain ⟨hk, hg⟩ := idxOf_of_perm h3 hm
    have hk : a.memArith.idxOf m < 5 := hk
    rw [OpcodeAssignment.number_memArith hm, OpcodeAssignment.mnemonicOf_memArith hk, hg]; exact ⟨rfl, by omega, by omega⟩
  · obtain ⟨hk, hg⟩ := idxOf_of_perm h4 hm
    have hk : a.immArith.idxOf m < 5 := hk
    rw [OpcodeAssignment.number_immArith hm, OpcodeAssignment.mnemonicOf_immArith hk, hg]; exact ⟨rfl, by omega, by omega⟩
  · exact ⟨h7, by omega, h6⟩

/-- The number of the mnemonic an opcode maps to is that opcode (30_encoding R84, R86). -/
theorem OpcodeAssignment.number_mnemonicOf (h : a.wf = true) {opc : Nat} {m : Mnemonic}
    (hm : a.mnemonicOf opc = some m) : a.number m = opc := by
  obtain ⟨h1, h2, h3, h4⟩ := OpcodeAssignment.wf_iff.1 h
  unfold OpcodeAssignment.mnemonicOf at hm
  split at hm
  · obtain ⟨hi, hg⟩ := idxOf_getElem_of_perm h1 (by decide) hm
    rw [OpcodeAssignment.number_io hg]; omega
  split at hm
  · obtain ⟨hi, hg⟩ := idxOf_getElem_of_perm h2 (by decide) hm
    rw [OpcodeAssignment.number_memory hg]; omega
  split at hm
  · obtain ⟨hi, hg⟩ := idxOf_getElem_of_perm h3 (by decide) hm
    rw [OpcodeAssignment.number_memArith hg]; omega
  split at hm
  · obtain ⟨hi, hg⟩ := idxOf_getElem_of_perm h4 (by decide) hm
    rw [OpcodeAssignment.number_immArith hg]; omega
  all_goals
    repeat' split at hm
    all_goals first | (cases hm; simp [OpcodeAssignment.number, *]) | cases hm

/-- Which opcode numbers are in the table, under every allowed assignment (30_encoding R86, R87). -/
theorem OpcodeAssignment.mnemonicOf_isSome (h : a.wf = true) (opc : Nat) :
    (a.mnemonicOf opc).isSome = true ↔
      (10 ≤ opc ∧ opc < 14) ∨ (20 ≤ opc ∧ opc < 23) ∨ (30 ≤ opc ∧ opc < 46) := by
  obtain ⟨h1, h2, h3, h4⟩ := OpcodeAssignment.wf_iff.1 h
  have l1 : a.io.length = 4 := h1.length_eq
  have l2 : a.memory.length = 3 := h2.length_eq
  have l3 : a.memArith.length = 5 := h3.length_eq
  have l4 : a.immArith.length = 5 := h4.length_eq
  unfold OpcodeAssignment.mnemonicOf
  repeat' split
  all_goals simp
  all_goals omega

/-! ### The fields of a word -/

theorem operandField_lt (w : Word) : operandField w < 100 := Nat.mod_lt _ (by decide)

/-- `uval(w) = opc × 100 + opd` (30_encoding R81). -/
theorem uval_eq_fields (w : Word) : uval w = opcodeField w * 100 + operandField w := by
  have := Nat.div_add_mod (uval w) 100
  unfold opcodeField operandField; omega

/-- The fields of a word composed as the encoder composes it (30_encoding R81, R102). -/
theorem fields_of_compose {k n : Nat} (hk : k ≤ 45) (hn : n < 100) :
    uval (BitVec.ofNat 16 (k * 100 + n)) = k * 100 + n ∧
      opcodeField (BitVec.ofNat 16 (k * 100 + n)) = k ∧ operandField (BitVec.ofNat 16 (k * 100 + n)) = n := by
  have h : uval (BitVec.ofNat 16 (k * 100 + n)) = k * 100 + n := by
    rw [uval, BitVec.toNat_ofNat, Nat.mod_eq_of_lt (by omega)]
  refine ⟨h, ?_, ?_⟩
  · rw [opcodeField, h]; omega
  · rw [operandField, h]; omega

/-! ### What the decoder gives -/

theorem decodeFields_ok {w : Word} {m : Mnemonic} {n : Nat} :
    decodeFields a w = .ok (m, n) ↔ a.mnemonicOf (opcodeField w) = some m ∧ operandField w = n := by
  unfold decodeFields
  cases a.mnemonicOf (opcodeField w) <;> simp

theorem decodeFields_error {w : Word} {e : DecodeError} :
    decodeFields a w = .error e ↔
      a.mnemonicOf (opcodeField w) = none ∧ e = .invalidOpcode (opcodeField w) := by
  unfold decodeFields
  cases a.mnemonicOf (opcodeField w) <;> simp [eq_comm]

theorem decode_ok {w : Word} {i : Instr} :
    decode a w = .ok i ↔ ∃ m, a.mnemonicOf (opcodeField w) = some m ∧ m.instr (operandField w) = i := by
  unfold decode decodeFields
  cases a.mnemonicOf (opcodeField w) <;> simp [Except.map]

theorem decode_error {w : Word} {e : DecodeError} :
    decode a w = .error e ↔ a.mnemonicOf (opcodeField w) = none ∧ e = .invalidOpcode (opcodeField w) := by
  unfold decode decodeFields
  cases a.mnemonicOf (opcodeField w) <;> simp [Except.map, eq_comm]

/-- An instruction with operand digits below 100 is well-formed. -/
theorem Mnemonic.instr_wf (m : Mnemonic) {n : Nat} (h : n < 100) : (m.instr n).wf = true := by
  cases m <;> simp [Mnemonic.instr, Instr.wf, operandInRange, h]

@[simp] theorem Mnemonic.instr_mnemonic (m : Mnemonic) (n : Nat) : (m.instr n).mnemonic = m := by
  cases m <;> rfl

/-- The decoder gives well-formed instructions only (30_encoding R82). -/
theorem decode_wf {w : Word} {i : Instr} (h : decode a w = .ok i) : i.wf = true := by
  obtain ⟨m, _, rfl⟩ := decode_ok.1 h
  exact m.instr_wf (operandField_lt w)

/-- The operand digits of a well-formed instruction, 0 where they are ignored (30_encoding R82, R102). -/
theorem Instr.operand_cases (i : Instr) (h : i.wf = true) :
    (∃ n, n < 100 ∧ i.operand = .immediate n ∧ i.mnemonic.instr n = i) ∨
      (i.operand = .none ∧ ∀ n, i.mnemonic.instr n = i) := by
  cases i <;> simp_all [Instr.wf, Instr.operand, Instr.mnemonic, Mnemonic.instr, operandInRange]

end Sys2Proof
end

