-- ==== Sys2Proof/Laws/State.lean ====
section
/-! SUPPORT. What each named update does to each field of State, and to the reading of a cell. -/

namespace Sys2Proof.Machine

/-! ### setCell -/

@[simp] theorem State.setCell_cfg (s : State) (a : Nat) (w : Word) : (s.setCell a w).cfg = s.cfg := rfl
@[simp] theorem State.setCell_acc (s : State) (a : Nat) (w : Word) : (s.setCell a w).acc = s.acc := rfl
@[simp] theorem State.setCell_pc (s : State) (a : Nat) (w : Word) : (s.setCell a w).pc = s.pc := rfl
@[simp] theorem State.setCell_ir (s : State) (a : Nat) (w : Word) : (s.setCell a w).ir = s.ir := rfl
@[simp] theorem State.setCell_opc (s : State) (a : Nat) (w : Word) : (s.setCell a w).opc = s.opc := rfl
@[simp] theorem State.setCell_opd (s : State) (a : Nat) (w : Word) : (s.setCell a w).opd = s.opd := rfl
@[simp] theorem State.setCell_status (s : State) (a : Nat) (w : Word) : (s.setCell a w).status = s.status := rfl
@[simp] theorem State.setCell_faultKind (s : State) (a : Nat) (w : Word) : (s.setCell a w).faultKind = s.faultKind := rfl
@[simp] theorem State.setCell_faultAddr (s : State) (a : Nat) (w : Word) : (s.setCell a w).faultAddr = s.faultAddr := rfl
@[simp] theorem State.setCell_mem (s : State) (a : Nat) (w : Word) : (s.setCell a w).mem = Memory.write s.unlisted s.mem a w := rfl
@[simp] theorem State.setCell_console (s : State) (a : Nat) (w : Word) : (s.setCell a w).console = s.console := rfl
@[simp] theorem State.setCell_output (s : State) (a : Nat) (w : Word) : (s.setCell a w).output = s.output := rfl
@[simp] theorem State.setCell_epoch (s : State) (a : Nat) (w : Word) : (s.setCell a w).epoch = s.epoch := rfl
@[simp] theorem State.setCell_unlisted (s : State) (a : Nat) (w : Word) : (s.setCell a w).unlisted = s.unlisted := rfl

/-! ### raise -/

@[simp] theorem State.raise_cfg (s : State) (k : Trap) : (s.raise k).cfg = s.cfg := rfl
@[simp] theorem State.raise_acc (s : State) (k : Trap) : (s.raise k).acc = s.acc := rfl
@[simp] theorem State.raise_pc (s : State) (k : Trap) : (s.raise k).pc = s.pc := rfl
@[simp] theorem State.raise_ir (s : State) (k : Trap) : (s.raise k).ir = s.ir := rfl
@[simp] theorem State.raise_opc (s : State) (k : Trap) : (s.raise k).opc = s.opc := rfl
@[simp] theorem State.raise_opd (s : State) (k : Trap) : (s.raise k).opd = s.opd := rfl
@[simp] theorem State.raise_status (s : State) (k : Trap) : (s.raise k).status = .faulted := rfl
@[simp] theorem State.raise_faultKind (s : State) (k : Trap) : (s.raise k).faultKind = k.kind := rfl
@[simp] theorem State.raise_faultAddr (s : State) (k : Trap) : (s.raise k).faultAddr = k.addr := rfl
@[simp] theorem State.raise_mem (s : State) (k : Trap) : (s.raise k).mem = s.mem := rfl
@[simp] theorem State.raise_console (s : State) (k : Trap) : (s.raise k).console = s.console := rfl
@[simp] theorem State.raise_output (s : State) (k : Trap) : (s.raise k).output = s.output := rfl
@[simp] theorem State.raise_epoch (s : State) (k : Trap) : (s.raise k).epoch = s.epoch := rfl
@[simp] theorem State.raise_unlisted (s : State) (k : Trap) : (s.raise k).unlisted = s.unlisted := rfl
@[simp] theorem State.raise_cell (s : State) (k : Trap) : (s.raise k).cell = s.cell := rfl

/-! ### setAcc -/

@[simp] theorem State.setAcc_cfg (s : State) (v : Int) : (s.setAcc v).cfg = s.cfg := rfl
@[simp] theorem State.setAcc_acc (s : State) (v : Int) : (s.setAcc v).acc = bits16 v := rfl
@[simp] theorem State.setAcc_pc (s : State) (v : Int) : (s.setAcc v).pc = s.pc := rfl
@[simp] theorem State.setAcc_ir (s : State) (v : Int) : (s.setAcc v).ir = s.ir := rfl
@[simp] theorem State.setAcc_opc (s : State) (v : Int) : (s.setAcc v).opc = s.opc := rfl
@[simp] theorem State.setAcc_opd (s : State) (v : Int) : (s.setAcc v).opd = s.opd := rfl
@[simp] theorem State.setAcc_status (s : State) (v : Int) : (s.setAcc v).status = s.status := rfl
@[simp] theorem State.setAcc_faultKind (s : State) (v : Int) : (s.setAcc v).faultKind = s.faultKind := rfl
@[simp] theorem State.setAcc_faultAddr (s : State) (v : Int) : (s.setAcc v).faultAddr = s.faultAddr := rfl
@[simp] theorem State.setAcc_mem (s : State) (v : Int) : (s.setAcc v).mem = s.mem := rfl
@[simp] theorem State.setAcc_console (s : State) (v : Int) : (s.setAcc v).console = s.console := rfl
@[simp] theorem State.setAcc_output (s : State) (v : Int) : (s.setAcc v).output = s.output := rfl
@[simp] theorem State.setAcc_epoch (s : State) (v : Int) : (s.setAcc v).epoch = s.epoch := rfl
@[simp] theorem State.setAcc_unlisted (s : State) (v : Int) : (s.setAcc v).unlisted = s.unlisted := rfl
@[simp] theorem State.setAcc_cell (s : State) (v : Int) : (s.setAcc v).cell = s.cell := rfl

/-! ### jumpTo -/

@[simp] theorem State.jumpTo_cfg (s : State) (a : Nat) : (s.jumpTo a).cfg = s.cfg := rfl
@[simp] theorem State.jumpTo_acc (s : State) (a : Nat) : (s.jumpTo a).acc = s.acc := rfl
@[simp] theorem State.jumpTo_pc (s : State) (a : Nat) : (s.jumpTo a).pc = zext16 a := rfl
@[simp] theorem State.jumpTo_ir (s : State) (a : Nat) : (s.jumpTo a).ir = s.ir := rfl
@[simp] theorem State.jumpTo_opc (s : State) (a : Nat) : (s.jumpTo a).opc = s.opc := rfl
@[simp] theorem State.jumpTo_opd (s : State) (a : Nat) : (s.jumpTo a).opd = s.opd := rfl
@[simp] theorem State.jumpTo_status (s : State) (a : Nat) : (s.jumpTo a).status = s.status := rfl
@[simp] theorem State.jumpTo_faultKind (s : State) (a : Nat) : (s.jumpTo a).faultKind = s.faultKind := rfl
@[simp] theorem State.jumpTo_faultAddr (s : State) (a : Nat) : (s.jumpTo a).faultAddr = s.faultAddr := rfl
@[simp] theorem State.jumpTo_mem (s : State) (a : Nat) : (s.jumpTo a).mem = s.mem := rfl
@[simp] theorem State.jumpTo_console (s : State) (a : Nat) : (s.jumpTo a).console = s.console := rfl
@[simp] theorem State.jumpTo_output (s : State) (a : Nat) : (s.jumpTo a).output = s.output := rfl
@[simp] theorem State.jumpTo_epoch (s : State) (a : Nat) : (s.jumpTo a).epoch = s.epoch := rfl
@[simp] theorem State.jumpTo_unlisted (s : State) (a : Nat) : (s.jumpTo a).unlisted = s.unlisted := rfl
@[simp] theorem State.jumpTo_cell (s : State) (a : Nat) : (s.jumpTo a).cell = s.cell := rfl

/-! ### advance -/

@[simp] theorem State.advance_cfg (s : State) : (s.advance).cfg = s.cfg := rfl
@[simp] theorem State.advance_acc (s : State) : (s.advance).acc = s.acc := rfl
@[simp] theorem State.advance_pc (s : State) : (s.advance).pc = s.pc + 1#16 := rfl
@[simp] theorem State.advance_ir (s : State) : (s.advance).ir = s.ir := rfl
@[simp] theorem State.advance_opc (s : State) : (s.advance).opc = s.opc := rfl
@[simp] theorem State.advance_opd (s : State) : (s.advance).opd = s.opd := rfl
@[simp] theorem State.advance_status (s : State) : (s.advance).status = s.status := rfl
@[simp] theorem State.advance_faultKind (s : State) : (s.advance).faultKind = s.faultKind := rfl
@[simp] theorem State.advance_faultAddr (s : State) : (s.advance).faultAddr = s.faultAddr := rfl
@[simp] theorem State.advance_mem (s : State) : (s.advance).mem = s.mem := rfl
@[simp] theorem State.advance_console (s : State) : (s.advance).console = s.console := rfl
@[simp] theorem State.advance_output (s : State) : (s.advance).output = s.output := rfl
@[simp] theorem State.advance_epoch (s : State) : (s.advance).epoch = s.epoch := rfl
@[simp] theorem State.advance_unlisted (s : State) : (s.advance).unlisted = s.unlisted := rfl
@[simp] theorem State.advance_cell (s : State) : (s.advance).cell = s.cell := rfl

/-! ### setStatus -/

@[simp] theorem State.setStatus_cfg (s : State) (v : Status) : (s.setStatus v).cfg = s.cfg := rfl
@[simp] theorem State.setStatus_acc (s : State) (v : Status) : (s.setStatus v).acc = s.acc := rfl
@[simp] theorem State.setStatus_pc (s : State) (v : Status) : (s.setStatus v).pc = s.pc := rfl
@[simp] theorem State.setStatus_ir (s : State) (v : Status) : (s.setStatus v).ir = s.ir := rfl
@[simp] theorem State.setStatus_opc (s : State) (v : Status) : (s.setStatus v).opc = s.opc := rfl
@[simp] theorem State.setStatus_opd (s : State) (v : Status) : (s.setStatus v).opd = s.opd := rfl
@[simp] theorem State.setStatus_status (s : State) (v : Status) : (s.setStatus v).status = v := rfl
@[simp] theorem State.setStatus_faultKind (s : State) (v : Status) : (s.setStatus v).faultKind = s.faultKind := rfl
@[simp] theorem State.setStatus_faultAddr (s : State) (v : Status) : (s.setStatus v).faultAddr = s.faultAddr := rfl
@[simp] theorem State.setStatus_mem (s : State) (v : Status) : (s.setStatus v).mem = s.mem := rfl
@[simp] theorem State.setStatus_console (s : State) (v : Status) : (s.setStatus v).console = s.console := rfl
@[simp] theorem State.setStatus_output (s : State) (v : Status) : (s.setStatus v).output = s.output := rfl
@[simp] theorem State.setStatus_epoch (s : State) (v : Status) : (s.setStatus v).epoch = s.epoch := rfl
@[simp] theorem State.setStatus_unlisted (s : State) (v : Status) : (s.setStatus v).unlisted = s.unlisted := rfl
@[simp] theorem State.setStatus_cell (s : State) (v : Status) : (s.setStatus v).cell = s.cell := rfl

/-! ### latch -/

@[simp] theorem State.latch_cfg (s : State) (w : Word) : (s.latch w).cfg = s.cfg := rfl
@[simp] theorem State.latch_acc (s : State) (w : Word) : (s.latch w).acc = s.acc := rfl
@[simp] theorem State.latch_pc (s : State) (w : Word) : (s.latch w).pc = s.pc := rfl
@[simp] theorem State.latch_ir (s : State) (w : Word) : (s.latch w).ir = w := rfl
@[simp] theorem State.latch_opc (s : State) (w : Word) : (s.latch w).opc = opcodeField w := rfl
@[simp] theorem State.latch_opd (s : State) (w : Word) : (s.latch w).opd = operandField w := rfl
@[simp] theorem State.latch_status (s : State) (w : Word) : (s.latch w).status = s.status := rfl
@[simp] theorem State.latch_faultKind (s : State) (w : Word) : (s.latch w).faultKind = s.faultKind := rfl
@[simp] theorem State.latch_faultAddr (s : State) (w : Word) : (s.latch w).faultAddr = s.faultAddr := rfl
@[simp] theorem State.latch_mem (s : State) (w : Word) : (s.latch w).mem = s.mem := rfl
@[simp] theorem State.latch_console (s : State) (w : Word) : (s.latch w).console = s.console := rfl
@[simp] theorem State.latch_output (s : State) (w : Word) : (s.latch w).output = s.output := rfl
@[simp] theorem State.latch_epoch (s : State) (w : Word) : (s.latch w).epoch = s.epoch := rfl
@[simp] theorem State.latch_unlisted (s : State) (w : Word) : (s.latch w).unlisted = s.unlisted := rfl
@[simp] theorem State.latch_cell (s : State) (w : Word) : (s.latch w).cell = s.cell := rfl

/-! ### emit -/

@[simp] theorem State.emit_cfg (s : State) (v : Int) : (s.emit v).cfg = s.cfg := rfl
@[simp] theorem State.emit_acc (s : State) (v : Int) : (s.emit v).acc = s.acc := rfl
@[simp] theorem State.emit_pc (s : State) (v : Int) : (s.emit v).pc = s.pc := rfl
@[simp] theorem State.emit_ir (s : State) (v : Int) : (s.emit v).ir = s.ir := rfl
@[simp] theorem State.emit_opc (s : State) (v : Int) : (s.emit v).opc = s.opc := rfl
@[simp] theorem State.emit_opd (s : State) (v : Int) : (s.emit v).opd = s.opd := rfl
@[simp] theorem State.emit_status (s : State) (v : Int) : (s.emit v).status = s.status := rfl
@[simp] theorem State.emit_faultKind (s : State) (v : Int) : (s.emit v).faultKind = s.faultKind := rfl
@[simp] theorem State.emit_faultAddr (s : State) (v : Int) : (s.emit v).faultAddr = s.faultAddr := rfl
@[simp] theorem State.emit_mem (s : State) (v : Int) : (s.emit v).mem = s.mem := rfl
@[simp] theorem State.emit_console (s : State) (v : Int) : (s.emit v).console = s.console := rfl
@[simp] theorem State.emit_output (s : State) (v : Int) : (s.emit v).output = s.output ++ [v] := rfl
@[simp] theorem State.emit_epoch (s : State) (v : Int) : (s.emit v).epoch = s.epoch := rfl
@[simp] theorem State.emit_unlisted (s : State) (v : Int) : (s.emit v).unlisted = s.unlisted := rfl
@[simp] theorem State.emit_cell (s : State) (v : Int) : (s.emit v).cell = s.cell := rfl

/-! ### takeAnswer -/

@[simp] theorem State.takeAnswer_cfg (s : State) (r : List Answer) : (s.takeAnswer r).cfg = s.cfg := rfl
@[simp] theorem State.takeAnswer_acc (s : State) (r : List Answer) : (s.takeAnswer r).acc = s.acc := rfl
@[simp] theorem State.takeAnswer_pc (s : State) (r : List Answer) : (s.takeAnswer r).pc = s.pc := rfl
@[simp] theorem State.takeAnswer_ir (s : State) (r : List Answer) : (s.takeAnswer r).ir = s.ir := rfl
@[simp] theorem State.takeAnswer_opc (s : State) (r : List Answer) : (s.takeAnswer r).opc = s.opc := rfl
@[simp] theorem State.takeAnswer_opd (s : State) (r : List Answer) : (s.takeAnswer r).opd = s.opd := rfl
@[simp] theorem State.takeAnswer_status (s : State) (r : List Answer) : (s.takeAnswer r).status = .running := rfl
@[simp] theorem State.takeAnswer_faultKind (s : State) (r : List Answer) : (s.takeAnswer r).faultKind = s.faultKind := rfl
@[simp] theorem State.takeAnswer_faultAddr (s : State) (r : List Answer) : (s.takeAnswer r).faultAddr = s.faultAddr := rfl
@[simp] theorem State.takeAnswer_mem (s : State) (r : List Answer) : (s.takeAnswer r).mem = s.mem := rfl
@[simp] theorem State.takeAnswer_console (s : State) (r : List Answer) : (s.takeAnswer r).console = r := rfl
@[simp] theorem State.takeAnswer_output (s : State) (r : List Answer) : (s.takeAnswer r).output = s.output := rfl
@[simp] theorem State.takeAnswer_epoch (s : State) (r : List Answer) : (s.takeAnswer r).epoch = s.epoch := rfl
@[simp] theorem State.takeAnswer_unlisted (s : State) (r : List Answer) : (s.takeAnswer r).unlisted = s.unlisted := rfl
@[simp] theorem State.takeAnswer_cell (s : State) (r : List Answer) : (s.takeAnswer r).cell = s.cell := rfl

end Sys2Proof.Machine
end

