-- ==== Sys2Proof/Laws/Memory.lean ====
section
/-! SUPPORT. Memory as a sparse list: read after write, and that every operation keeps the canonical form. -/

namespace Sys2Proof.Machine

variable {d : Nat → Word} {m : Memory} {a b : Nat} {w : Word}

@[simp] theorem Memory.read_nil : Memory.read d [] a = d a := rfl

theorem Memory.read_cons {c : Nat × Word} :
    Memory.read d (c :: m) a = if c.1 = a then c.2 else Memory.read d m a := rfl

theorem Memory.read_forget_same : Memory.read d (Memory.forget m a) a = d a := by
  induction m with
  | nil => rfl
  | cons c m ih =>
    by_cases h : c.1 = a
    · simpa [Memory.forget, h] using ih
    · have : Memory.forget (c :: m) a = c :: Memory.forget m a := by simp [Memory.forget, h]
      rw [this, Memory.read_cons, if_neg h, ih]

theorem Memory.read_forget_other (h : b ≠ a) : Memory.read d (Memory.forget m a) b = Memory.read d m b := by
  induction m with
  | nil => rfl
  | cons c m ih =>
    by_cases hc : c.1 = a
    · have : Memory.forget (c :: m) a = Memory.forget m a := by simp [Memory.forget, hc]
      rw [this, ih, Memory.read_cons, if_neg (by omega)]
    · have : Memory.forget (c :: m) a = c :: Memory.forget m a := by simp [Memory.forget, hc]
      rw [this, Memory.read_cons, Memory.read_cons, ih]

theorem Memory.read_enter (hm : ∀ c ∈ m, c.1 ≠ a) :
    Memory.read d (Memory.enter m a w) b = if a = b then w else Memory.read d m b := by
  induction m with
  | nil => rfl
  | cons c m ih =>
    have hc := hm c (by simp)
    have ih := ih fun x hx => hm x (by simp [hx])
    unfold Memory.enter
    split
    · rfl
    · rw [Memory.read_cons, ih, Memory.read_cons]
      split
      · rename_i h; rw [if_neg (by omega)]
      · rfl

theorem Memory.forget_ne : ∀ c ∈ Memory.forget m a, c.1 ≠ a := by
  intro c hc
  simpa [Memory.forget] using (List.mem_filter.1 hc).2

/-- A read of the cell just written gives what was written. -/
theorem Memory.read_write_same : Memory.read d (Memory.write d m a w) a = w := by
  unfold Memory.write
  split
  · rename_i h; rw [Memory.read_forget_same, h]
  · rw [Memory.read_enter Memory.forget_ne, if_pos rfl]

/-- A write leaves every other cell alone. -/
theorem Memory.read_write_other (h : b ≠ a) :
    Memory.read d (Memory.write d m a w) b = Memory.read d m b := by
  unfold Memory.write
  split
  · exact Memory.read_forget_other h
  · rw [Memory.read_enter Memory.forget_ne, if_neg (by omega), Memory.read_forget_other h]

theorem Memory.wf_iff {n : Nat} : Memory.wf n d m = true ↔
    (m.Pairwise fun x y => x.1 < y.1) ∧ ∀ c ∈ m, c.1 < n ∧ c.2 ≠ d c.1 := by
  simp [Memory.wf]

theorem Memory.mem_enter {x : Nat × Word} : x ∈ Memory.enter m a w ↔ x = (a, w) ∨ x ∈ m := by
  induction m with
  | nil => simp [Memory.enter]
  | cons c m ih =>
    unfold Memory.enter
    split
    · simp
    · simp [ih]; tauto

theorem Memory.sorted_enter (hm : ∀ c ∈ m, c.1 ≠ a) (hs : m.Pairwise fun x y => x.1 < y.1) :
    (Memory.enter m a w).Pairwise fun x y => x.1 < y.1 := by
  induction m with
  | nil => simp [Memory.enter]
  | cons c m ih =>
    obtain ⟨hc, hs⟩ := List.pairwise_cons.1 hs
    have hne := hm c (by simp)
    unfold Memory.enter
    split
    · rename_i hlt
      refine List.pairwise_cons.2 ⟨fun y hy => ?_, List.pairwise_cons.2 ⟨hc, hs⟩⟩
      rcases List.mem_cons.1 hy with rfl | hy
      · exact hlt
      · exact Nat.lt_trans hlt (hc y hy)
    · refine List.pairwise_cons.2 ⟨fun y hy => ?_, ih (fun x hx => hm x (by simp [hx])) hs⟩
      rcases Memory.mem_enter.1 hy with rfl | hy
      · show c.1 < a; omega
      · exact hc y hy

/-- Every memory operation keeps the canonical form: a write below N does. -/
theorem Memory.wf_write {n : Nat} (h : Memory.wf n d m = true) (ha : a < n) :
    Memory.wf n d (Memory.write d m a w) = true := by
  obtain ⟨hs, hc⟩ := Memory.wf_iff.1 h
  have hf : (Memory.forget m a).Pairwise fun x y => x.1 < y.1 := hs.filter _
  have hfc : ∀ c ∈ Memory.forget m a, c.1 < n ∧ c.2 ≠ d c.1 := fun c h => hc c (List.mem_filter.1 h).1
  refine Memory.wf_iff.2 ?_
  unfold Memory.write
  split
  · exact ⟨hf, hfc⟩
  · rename_i hw
    refine ⟨Memory.sorted_enter Memory.forget_ne hf, fun c hcm => ?_⟩
    rcases Memory.mem_enter.1 hcm with rfl | hcm
    · exact ⟨ha, hw⟩
    · exact hfc c hcm

/-- The memory right after reset is in canonical form. -/
theorem Memory.wf_reset (c : Config) :
    Memory.wf c.memSize (State.resetWith c).unlisted (State.resetWith c).mem = true := rfl

@[simp] theorem State.setCell_cell_same (s : State) (a : Nat) (w : Word) : (s.setCell a w).cell a = w :=
  Memory.read_write_same

theorem State.setCell_cell_other (s : State) {a b : Nat} (w : Word) (h : b ≠ a) :
    (s.setCell a w).cell b = s.cell b :=
  Memory.read_write_other h

theorem State.setCell_cell (s : State) (a b : Nat) (w : Word) :
    (s.setCell a w).cell b = if b = a then w else s.cell b := by
  split
  · rename_i h; subst h; simp
  · rename_i h; exact s.setCell_cell_other w h

end Sys2Proof.Machine
end

