-- ==== Sys2Proof/Laws/Words.lean ====
section
/-! SUPPORT. The two readings of a word and the data range (00_scope R9), and truncating division (R10). -/

namespace Sys2Proof.Machine

theorem uval_lt (w : Word) : uval w < 65536 := w.isLt

theorem uval_ofNat {n : Nat} (h : n < 65536) : uval (BitVec.ofNat 16 n) = n := by
  rw [uval, BitVec.toNat_ofNat, Nat.mod_eq_of_lt (by omega)]

theorem uval_zext16 {n : Nat} (h : n < 65536) : uval (zext16 n) = n := uval_ofNat h

@[simp] theorem ofNat_uval (w : Word) : BitVec.ofNat 16 (uval w) = w := by simp [uval]

/-- Below 65535 the next address does not wrap (10_state R27). -/
theorem uval_add_one {w : Word} (h : uval w < 65535) : uval (w + 1#16) = uval w + 1 := by
  unfold uval at *
  rw [BitVec.toNat_add]
  simp
  omega

/-- `sval` is the two's complement reading of the bit vector. -/
theorem sval_eq_toInt (w : Word) : sval w = w.toInt := by
  unfold sval uval
  rw [BitVec.toInt_eq_toNat_cond]
  split <;> split <;> omega

theorem inRange_iff {v : Int} : inRange v = true ↔ -32768 ≤ v ∧ v ≤ 32767 := by simp [inRange]

theorem not_inRange_iff {v : Int} : inRange v = false ↔ v < -32768 ∨ 32767 < v := by
  rw [← Bool.not_eq_true, inRange_iff]; omega

theorem sval_bounds (w : Word) : -32768 ≤ sval w ∧ sval w ≤ 32767 := by
  have h : uval w < 65536 := w.isLt
  unfold sval
  split <;> omega

theorem sval_inRange (w : Word) : inRange (sval w) = true := inRange_iff.2 (sval_bounds w)

@[simp] theorem bits16_sval (w : Word) : bits16 (sval w) = w := by
  rw [sval_eq_toInt, bits16, BitVec.ofInt_toInt]

theorem sval_bits16 {v : Int} (h : inRange v = true) : sval (bits16 v) = v := by
  obtain ⟨h1, h2⟩ := inRange_iff.1 h
  rw [sval_eq_toInt, bits16, BitVec.toInt_ofInt]
  exact Int.bmod_eq_of_le (by omega) (by omega)

theorem trem_eq_tmod (a b : Int) : trem a b = Int.tmod a b := by
  have := Int.tmod_add_mul_tdiv a b
  unfold trem tdiv; omega

theorem chk_of_inRange {v : Int} (h : inRange v = true) : chk v = .ok v := by simp [chk, h]

theorem chk_of_not_inRange {v : Int} (h : inRange v = false) : chk v = .error .arithmeticOverflow := by
  simp [chk, h]

end Sys2Proof.Machine
end

