-- ==== Sys2Proof/Laws/Ops.lean ====
section
/-! SUPPORT. Of each shared operation, everything it can do. -/

namespace Sys2Proof.Machine

variable {s t : State} {a : Nat} {w : Word}

theorem memRead_below (h : a < s.cfg.memSize) : memRead s a = .ok (s.cell a) := if_pos h

theorem memRead_beyond (h : s.cfg.memSize ≤ a) : memRead s a = .error (.addressOutOfBounds a) :=
  if_neg (by omega)

theorem memWrite_below (h : a < s.cfg.memSize) : memWrite s a w = .ok (s.setCell a w) := if_pos h

theorem memWrite_beyond (h : s.cfg.memSize ≤ a) : memWrite s a w = .error (.addressOutOfBounds a) :=
  if_neg (by omega)

theorem memoryOperand_below (h : a < s.cfg.memSize) : memoryOperand s a = .ok (sval (s.cell a)) := by
  simp [memoryOperand, memRead_below h, Except.map]

theorem memoryOperand_beyond (h : s.cfg.memSize ≤ a) :
    memoryOperand s a = .error (.addressOutOfBounds a) := by
  simp [memoryOperand, memRead_beyond h, Except.map]

@[simp] theorem complete_ok (u : State) : complete s (.ok u) = .next u.advance := rfl

@[simp] theorem complete_error (k : Trap) : complete s (.error k) = .next (s.raise k) := rfl

/-- An instruction that completes either went through or faulted; it has no third outcome. -/
theorem complete_cases {r : Except Trap State} (h : complete s r = .next t) :
    (∃ u, r = .ok u ∧ t = u.advance) ∨ ∃ k, r = .error k ∧ t = s.raise k := by
  cases r with
  | ok u => exact .inl ⟨u, rfl, by simpa using h.symm⟩
  | error k => exact .inr ⟨k, rfl, by simpa using h.symm⟩

theorem inRead_unanswered (h : s.console = []) : inRead s = none := by simp [inRead, h]

theorem inRead_answered {r : Answer} {rest : List Answer} (h : s.console = r :: rest) :
    inRead s = some (r.check, s.takeAnswer rest) := by simp [inRead, h]

theorem Answer.check_value {v : Int} (h : inRange v = true) : (Answer.value v).check = .ok v := if_pos h

theorem Answer.check_out_of_range {v : Int} (h : inRange v = false) :
    (Answer.value v).check = .error .invalidReadInput := by simp [Answer.check, h]

/-- What a checked console line is: a value in range, or InvalidReadInput. -/
theorem Answer.check_cases (r : Answer) :
    (∃ v, r = .value v ∧ inRange v = true ∧ r.check = .ok v) ∨ r.check = .error .invalidReadInput := by
  cases r with
  | malformed => exact .inr rfl
  | value v =>
    cases h : inRange v with
    | true => exact .inl ⟨v, rfl, h, Answer.check_value h⟩
    | false => exact .inr (Answer.check_out_of_range h)

theorem arith_through {f : Int → Int → Except Trap Int} {b : Except Trap Int} {v r : Int}
    (hb : b = .ok v) (hf : f (sval s.acc) v = .ok r) : arith f b s = .next (s.setAcc r).advance := by
  simp [arith, hb, hf, Except.bind, Except.map]

theorem arith_operand_fault {f : Int → Int → Except Trap Int} {b : Except Trap Int} {k : Trap}
    (hb : b = .error k) : arith f b s = .next (s.raise k) := by
  simp [arith, hb, Except.bind, Except.map]

theorem arith_alu_fault {f : Int → Int → Except Trap Int} {b : Except Trap Int} {v : Int} {k : Trap}
    (hb : b = .ok v) (hf : f (sval s.acc) v = .error k) : arith f b s = .next (s.raise k) := by
  simp [arith, hb, hf, Except.bind, Except.map]

/-- One arithmetic instruction writes `acc` and advances, or faults with what its operand or the ALU raised. -/
theorem arith_cases {f : Int → Int → Except Trap Int} {b : Except Trap Int} (h : arith f b s = .next t) :
    (∃ v r, b = .ok v ∧ f (sval s.acc) v = .ok r ∧ t = (s.setAcc r).advance) ∨
      ∃ k, t = s.raise k ∧ (b = .error k ∨ ∃ v, b = .ok v ∧ f (sval s.acc) v = .error k) := by
  cases b with
  | error k => exact .inr ⟨k, by simpa [arith_operand_fault rfl] using h.symm, .inl rfl⟩
  | ok v =>
    cases hf : f (sval s.acc) v with
    | ok r => exact .inl ⟨v, r, rfl, hf, by simpa [arith_through rfl hf] using h.symm⟩
    | error k => exact .inr ⟨k, by simpa [arith_alu_fault rfl hf] using h.symm, .inr ⟨v, rfl, hf⟩⟩

/-- The memory operand is the cell's value or AddressOutOfBounds. -/
theorem memoryOperand_cases (s : State) (a : Nat) :
    (a < s.cfg.memSize ∧ memoryOperand s a = .ok (sval (s.cell a))) ∨
      (s.cfg.memSize ≤ a ∧ memoryOperand s a = .error (.addressOutOfBounds a)) := by
  rcases Nat.lt_or_ge a s.cfg.memSize with h | h
  · exact .inl ⟨h, memoryOperand_below h⟩
  · exact .inr ⟨h, memoryOperand_beyond h⟩

end Sys2Proof.Machine
end

