-- ==== Sys2Proof/Laws/Exec.lean ====
section
/-! SUPPORT. Everything an instruction can do, said once: `exec` always answers a next state, and that state is one of the
eleven of `Effect`. A proof over all instructions takes `exec_effect` and cases on it. -/

namespace Sys2Proof.Machine

/-- What a fault an instruction raises in state `s` can be (60_exceptions R230, R231). -/
def MayRaise (i : Instr) (s : State) (k : Trap) : Prop :=
  raisedBy i k.kind = true ∧ ∀ a, k = .addressOutOfBounds a → a = i.number ∧ s.cfg.memSize ≤ a

/-- The states an instruction may leave. -/
inductive Effect (i : Instr) (s : State) : State → Prop where
  | waits : i.takesInput = true → s.console = [] → Effect i s (s.setStatus .waitInput)
  | faults (k : Trap) : i.takesInput = false → MayRaise i s k → Effect i s (s.raise k)
  | inputFaults (k : Trap) (r : Answer) (rest : List Answer) : i.takesInput = true →
      s.console = r :: rest → MayRaise i s k → Effect i s ((s.takeAnswer rest).raise k)
  | sends (v : Int) : i.sends = true → inRange v = true → Effect i s (s.emit v).advance
  | writesAcc (v : Int) : i.writesAcc = true → i.takesInput = false → inRange v = true →
      Effect i s (s.setAcc v).advance
  | inputAcc (v : Int) (rest : List Answer) : i = .readImmediate → s.console = .value v :: rest →
      inRange v = true → Effect i s ((s.takeAnswer rest).setAcc v).advance
  | storesAcc (a : Nat) : i = .store a → a < s.cfg.memSize → Effect i s (s.setCell a s.acc).advance
  | inputCell (a : Nat) (v : Int) (rest : List Answer) : i = .read a → a < s.cfg.memSize →
      s.console = .value v :: rest → inRange v = true →
      Effect i s ((s.takeAnswer rest).setCell a (bits16 v)).advance
  | jumps : i.jumps = true → Effect i s (s.jumpTo i.number)
  | fallsThrough : i.jumps = true → Effect i s s.advance
  | halts : i = .halt → Effect i s (s.setStatus .halted)

/-- `exec i s` answers a next state, one that `Effect` describes. -/
def Answers (i : Instr) (s : State) (r : Result) : Prop := ∃ t, r = .next t ∧ Effect i s t

/-! ### The ALU's checks -/

/-- An ALU operation gives a result in range, or one of the faults the instruction `i` may raise. -/
def AluSound (i : Instr) (f : Int → Int → Except Trap Int) : Prop :=
  ∀ a b, inRange a = true → (∃ r, f a b = .ok r ∧ inRange r = true) ∨
    (f a b = .error .arithmeticOverflow ∧ raisedBy i .arithmeticOverflow = true) ∨
    (f a b = .error .divisionByZero ∧ raisedBy i .divisionByZero = true)

theorem chk_cases (v : Int) :
    (chk v = .ok v ∧ inRange v = true) ∨ chk v = .error .arithmeticOverflow := by
  cases h : inRange v with
  | true => exact .inl ⟨chk_of_inRange h, rfl⟩
  | false => exact .inr (chk_of_not_inRange h)

theorem aluSound_of_chk {i : Instr} {f : Int → Int → Int} (hi : raisedBy i .arithmeticOverflow = true) :
    AluSound i fun a b => chk (f a b) := by
  intro a b _
  rcases chk_cases (f a b) with ⟨h1, h2⟩ | h
  · exact .inl ⟨_, h1, h2⟩
  · exact .inr (.inl ⟨h, hi⟩)

theorem tdiv_natAbs_le (a b : Int) : (Int.tdiv a b).natAbs ≤ a.natAbs := by
  rw [Int.natAbs_tdiv]; exact Nat.div_le_self _ _

theorem tmod_natAbs_le (a b : Int) : (Int.tmod a b).natAbs ≤ a.natAbs := by
  rw [Int.natAbs_tmod]; exact Nat.mod_le _ _

/-- The remainder never overflows (42_arithmetic R164). -/
theorem trem_inRange {a : Int} (b : Int) (h : inRange a = true) : inRange (trem a b) = true := by
  have h1 := inRange_iff.1 h
  have h2 := tmod_natAbs_le a b
  have h3 : 0 ≤ a → 0 ≤ Int.tmod a b := fun h => Int.tmod_nonneg b h
  have h4 : a ≤ 0 → Int.tmod a b ≤ 0 := fun h => by
    have := Int.tmod_nonneg b (show 0 ≤ -a by omega)
    rw [Int.neg_tmod] at this; omega
  rw [trem_eq_tmod, inRange_iff]; omega

theorem aluDiv_sound {i : Instr} (h1 : raisedBy i .divisionByZero = true)
    (h2 : raisedBy i .arithmeticOverflow = true) : AluSound i aluDiv := by
  intro a b _
  unfold aluDiv
  split
  · exact .inr (.inr ⟨rfl, h1⟩)
  · rcases chk_cases (tdiv a b) with ⟨h3, h4⟩ | h3
    · exact .inl ⟨_, h3, h4⟩
    · exact .inr (.inl ⟨h3, h2⟩)

theorem aluMod_sound {i : Instr} (h : raisedBy i .divisionByZero = true) : AluSound i aluMod := by
  intro a b ha
  unfold aluMod
  split
  · exact .inr (.inr ⟨rfl, h⟩)
  · exact .inl ⟨_, rfl, trem_inRange b ha⟩

/-- With a divisor above 0 the quotient is in range (42_arithmetic R163). -/
theorem tdiv_inRange_of_pos {a b : Int} (hb : 0 < b) (h : inRange a = true) : inRange (tdiv a b) = true := by
  have h1 := inRange_iff.1 h
  have h2 := tdiv_natAbs_le a b
  have h3 : 0 ≤ a → 0 ≤ Int.tdiv a b := fun h => Int.tdiv_nonneg h (by omega)
  have h4 : a ≤ 0 → Int.tdiv a b ≤ 0 := fun h => by
    have := Int.tdiv_nonneg (show 0 ≤ -a by omega) (show 0 ≤ b by omega)
    rw [Int.neg_tdiv] at this; omega
  unfold tdiv
  rw [inRange_iff]; omega

theorem aluDiv_of_pos {a b : Int} (hb : 0 < b) (h : inRange a = true) : aluDiv a b = .ok (tdiv a b) := by
  rw [aluDiv, if_neg (by omega), chk_of_inRange (tdiv_inRange_of_pos hb h)]

/-! ### The shapes of instruction -/

theorem answers_arith_memory {i : Instr} {f : Int → Int → Except Trap Int} {a : Nat} (s : State)
    (hf : AluSound i f) (hi : i.writesAcc = true) (hm : raisedBy i .addressOutOfBounds = true)
    (hn : i.number = a) (ht : i.takesInput = false) : Answers i s (arith f (memoryOperand s a) s) := by
  rcases memoryOperand_cases s a with ⟨_, h⟩ | ⟨hge, h⟩
  · rcases hf (sval s.acc) (sval (s.cell a)) (sval_inRange _) with ⟨r, h1, h2⟩ | ⟨h1, h2⟩ | ⟨h1, h2⟩
    · exact ⟨_, arith_through h h1, .writesAcc r hi ht h2⟩
    · exact ⟨_, arith_alu_fault h h1, .faults _ ht ⟨h2, by simp⟩⟩
    · exact ⟨_, arith_alu_fault h h1, .faults _ ht ⟨h2, by simp⟩⟩
  · exact ⟨_, arith_operand_fault h, .faults _ ht ⟨hm, by rintro _ ⟨⟩; exact ⟨hn.symm, hge⟩⟩⟩

theorem answers_arith_immediate {i : Instr} {f : Int → Int → Except Trap Int} {n : Nat} (s : State)
    (hf : ∀ a, inRange a = true → (∃ r, f a n = .ok r ∧ inRange r = true) ∨
      (f a n = .error .arithmeticOverflow ∧ raisedBy i .arithmeticOverflow = true) ∨
      (f a n = .error .divisionByZero ∧ raisedBy i .divisionByZero = true))
    (hi : i.writesAcc = true) (ht : i.takesInput = false) :
    Answers i s (arith f (immediateOperand n) s) := by
  have h : immediateOperand n = .ok (n : Int) := rfl
  rcases hf (sval s.acc) (sval_inRange _) with ⟨r, h1, h2⟩ | ⟨h1, h2⟩ | ⟨h1, h2⟩
  · exact ⟨_, arith_through h h1, .writesAcc r hi ht h2⟩
  · exact ⟨_, arith_alu_fault h h1, .faults _ ht ⟨h2, by simp⟩⟩
  · exact ⟨_, arith_alu_fault h h1, .faults _ ht ⟨h2, by simp⟩⟩

theorem answers_jumpIf {i : Instr} (c : Bool) (s : State) (hi : i.jumps = true) :
    Answers i s (jumpIf c i.number s) := by
  cases c with
  | true => exact ⟨_, rfl, .jumps hi⟩
  | false => exact ⟨_, rfl, .fallsThrough hi⟩

theorem answers_read (a : Nat) (s : State) : Answers (.read a) s (execRead a s) := by
  unfold execRead
  cases hc : s.console with
  | nil => exact ⟨_, by rw [inRead_unanswered hc], .waits rfl hc⟩
  | cons r rest =>
    rw [inRead_answered hc]
    rcases r.check_cases with ⟨v, rfl, hv, h⟩ | h
    · rcases Nat.lt_or_ge a s.cfg.memSize with ha | ha
      · exact ⟨_, by simp only [h, Except.bind]; rw [memWrite_below (by simpa using ha)]; rfl,
          .inputCell a v rest rfl ha hc hv⟩
      · exact ⟨_, by simp only [h, Except.bind]; rw [memWrite_beyond (by simpa using ha)]; rfl,
          .inputFaults _ _ rest rfl hc ⟨rfl, by rintro _ ⟨⟩; exact ⟨rfl, ha⟩⟩⟩
    · exact ⟨_, by simp only [h, Except.bind]; rfl, .inputFaults _ r rest rfl hc ⟨rfl, by simp⟩⟩

theorem answers_readImmediate (s : State) : Answers .readImmediate s (execReadImmediate s) := by
  unfold execReadImmediate
  cases hc : s.console with
  | nil => exact ⟨_, by rw [inRead_unanswered hc], .waits rfl hc⟩
  | cons r rest =>
    rw [inRead_answered hc]
    rcases r.check_cases with ⟨v, rfl, hv, h⟩ | h
    · exact ⟨_, by simp only [h, Except.map]; rfl, .inputAcc v rest rfl hc hv⟩
    · exact ⟨_, by simp only [h, Except.map]; rfl, .inputFaults _ r rest rfl hc ⟨rfl, by simp⟩⟩

theorem answers_write (a : Nat) (s : State) : Answers (.write a) s (execWrite a s) := by
  unfold execWrite
  rcases memoryOperand_cases s a with ⟨_, h⟩ | ⟨hge, h⟩
  · exact ⟨_, by rw [h]; rfl, .sends _ rfl (sval_inRange _)⟩
  · exact ⟨_, by rw [h]; rfl, .faults _ rfl ⟨rfl, by rintro _ ⟨⟩; exact ⟨rfl, hge⟩⟩⟩

theorem answers_load (a : Nat) (s : State) : Answers (.load a) s (execLoad a s) := by
  unfold execLoad
  rcases memoryOperand_cases s a with ⟨_, h⟩ | ⟨hge, h⟩
  · exact ⟨_, by rw [h]; rfl, .writesAcc _ rfl rfl (sval_inRange _)⟩
  · exact ⟨_, by rw [h]; rfl, .faults _ rfl ⟨rfl, by rintro _ ⟨⟩; exact ⟨rfl, hge⟩⟩⟩

theorem answers_store (a : Nat) (s : State) : Answers (.store a) s (execStore a s) := by
  unfold execStore
  rcases Nat.lt_or_ge a s.cfg.memSize with ha | ha
  · exact ⟨_, by rw [memWrite_below ha, bits16_sval]; rfl, .storesAcc a rfl ha⟩
  · exact ⟨_, by rw [memWrite_beyond ha]; rfl, .faults _ rfl ⟨rfl, by rintro _ ⟨⟩; exact ⟨rfl, ha⟩⟩⟩

/-- LOAD-IMMEDIATE sets `acc` to an immediate value of the operand's range (41_load_store R142). -/
theorem answers_loadImmediate {n : Nat} (s : State) (hn : n < 100) :
    Answers (.loadImmediate n) s (execLoadImmediate n s) :=
  ⟨_, rfl, .writesAcc _ rfl rfl (inRange_iff.2 (by omega))⟩

/-! ### All instructions -/

theorem operandInRange_iff {n : Nat} : operandInRange n = true ↔ n < 100 := by simp [operandInRange]

/-- Every well-formed instruction answers a next state, one of `Effect`. -/
theorem exec_answers {i : Instr} (s : State) (hi : i.wf = true) : Answers i s (exec i s) := by
  cases i with
  | read a => exact answers_read a s
  | write a => exact answers_write a s
  | writeAccumulator => exact ⟨_, rfl, .sends _ rfl (sval_inRange _)⟩
  | readImmediate => exact answers_readImmediate s
  | load a => exact answers_load a s
  | store a => exact answers_store a s
  | loadImmediate n => exact answers_loadImmediate s (operandInRange_iff.1 hi)
  | add a => exact answers_arith_memory s (aluSound_of_chk rfl) rfl rfl rfl rfl
  | sub a => exact answers_arith_memory s (aluSound_of_chk rfl) rfl rfl rfl rfl
  | mul a => exact answers_arith_memory s (aluSound_of_chk rfl) rfl rfl rfl rfl
  | mod a => exact answers_arith_memory s (aluMod_sound rfl) rfl rfl rfl rfl
  | div a => exact answers_arith_memory s (aluDiv_sound rfl rfl) rfl rfl rfl rfl
  | addImmediate n => exact answers_arith_immediate s (fun a ha => aluSound_of_chk rfl a n ha) rfl rfl
  | subImmediate n => exact answers_arith_immediate s (fun a ha => aluSound_of_chk rfl a n ha) rfl rfl
  | mulImmediate n => exact answers_arith_immediate s (fun a ha => aluSound_of_chk rfl a n ha) rfl rfl
  | modImmediate n => exact answers_arith_immediate s (fun a ha => aluMod_sound rfl a n ha) rfl rfl
  | divImmediate n =>
    refine answers_arith_immediate s (fun a ha => ?_) rfl rfl
    rcases Nat.eq_zero_or_pos n with rfl | hn
    · exact .inr (.inr ⟨rfl, rfl⟩)
    · exact .inl ⟨_, aluDiv_of_pos (by omega) ha, tdiv_inRange_of_pos (by omega) ha⟩
  | jump a => exact ⟨_, rfl, .jumps rfl⟩
  | jumpIfNegative a => exact answers_jumpIf (i := .jumpIfNegative a) _ s rfl
  | jumpIfZero a => exact answers_jumpIf (i := .jumpIfZero a) _ s rfl
  | jumpIfNotZero a => exact answers_jumpIf (i := .jumpIfNotZero a) _ s rfl
  | jumpIfGreaterThanZero a => exact answers_jumpIf (i := .jumpIfGreaterThanZero a) _ s rfl
  | halt => exact ⟨_, rfl, .halts rfl⟩

/-- Inversion: whatever next state a well-formed instruction leaves is one of `Effect`. -/
theorem exec_effect {i : Instr} {s t : State} (hi : i.wf = true) (h : exec i s = .next t) : Effect i s t := by
  obtain ⟨u, hu, he⟩ := exec_answers s hi
  rw [h] at hu
  cases hu
  exact he

end Sys2Proof.Machine
end

