-- ==== Sys2Proof/Laws/PerInstr.lean ====
section
/-! SUPPORT. Statements about every instruction as syntax, one lemma per constructor. -/

namespace Sys2Proof.Laws

/-- An instruction is rebuilt from its mnemonic and its operand digits, whatever the digits where they are ignored
(30_encoding R82, R88). -/
def Rebuild.Statement (i : Instr) : Prop :=
  ∀ n, i.operand = .immediate n ∨ i.operand = .none → i.mnemonic.instr n = i

theorem Rebuild.read (n : Nat) : Rebuild.Statement (.read n) := by
  intro k h; simp_all [Instr.operand, Instr.mnemonic, Mnemonic.instr]

theorem Rebuild.write (n : Nat) : Rebuild.Statement (.write n) := by
  intro k h; simp_all [Instr.operand, Instr.mnemonic, Mnemonic.instr]

theorem Rebuild.writeAccumulator : Rebuild.Statement .writeAccumulator := fun _ _ => rfl

theorem Rebuild.readImmediate : Rebuild.Statement .readImmediate := fun _ _ => rfl

theorem Rebuild.load (n : Nat) : Rebuild.Statement (.load n) := by
  intro k h; simp_all [Instr.operand, Instr.mnemonic, Mnemonic.instr]

theorem Rebuild.store (n : Nat) : Rebuild.Statement (.store n) := by
  intro k h; simp_all [Instr.operand, Instr.mnemonic, Mnemonic.instr]

theorem Rebuild.loadImmediate (n : Nat) : Rebuild.Statement (.loadImmediate n) := by
  intro k h; simp_all [Instr.operand, Instr.mnemonic, Mnemonic.instr]

theorem Rebuild.add (n : Nat) : Rebuild.Statement (.add n) := by
  intro k h; simp_all [Instr.operand, Instr.mnemonic, Mnemonic.instr]

theorem Rebuild.sub (n : Nat) : Rebuild.Statement (.sub n) := by
  intro k h; simp_all [Instr.operand, Instr.mnemonic, Mnemonic.instr]

theorem Rebuild.div (n : Nat) : Rebuild.Statement (.div n) := by
  intro k h; simp_all [Instr.operand, Instr.mnemonic, Mnemonic.instr]

theorem Rebuild.mod (n : Nat) : Rebuild.Statement (.mod n) := by
  intro k h; simp_all [Instr.operand, Instr.mnemonic, Mnemonic.instr]

theorem Rebuild.mul (n : Nat) : Rebuild.Statement (.mul n) := by
  intro k h; simp_all [Instr.operand, Instr.mnemonic, Mnemonic.instr]

theorem Rebuild.addImmediate (n : Nat) : Rebuild.Statement (.addImmediate n) := by
  intro k h; simp_all [Instr.operand, Instr.mnemonic, Mnemonic.instr]

theorem Rebuild.subImmediate (n : Nat) : Rebuild.Statement (.subImmediate n) := by
  intro k h; simp_all [Instr.operand, Instr.mnemonic, Mnemonic.instr]

theorem Rebuild.divImmediate (n : Nat) : Rebuild.Statement (.divImmediate n) := by
  intro k h; simp_all [Instr.operand, Instr.mnemonic, Mnemonic.instr]

theorem Rebuild.modImmediate (n : Nat) : Rebuild.Statement (.modImmediate n) := by
  intro k h; simp_all [Instr.operand, Instr.mnemonic, Mnemonic.instr]

theorem Rebuild.mulImmediate (n : Nat) : Rebuild.Statement (.mulImmediate n) := by
  intro k h; simp_all [Instr.operand, Instr.mnemonic, Mnemonic.instr]

theorem Rebuild.jump (n : Nat) : Rebuild.Statement (.jump n) := by
  intro k h; simp_all [Instr.operand, Instr.mnemonic, Mnemonic.instr]

theorem Rebuild.jumpIfNegative (n : Nat) : Rebuild.Statement (.jumpIfNegative n) := by
  intro k h; simp_all [Instr.operand, Instr.mnemonic, Mnemonic.instr]

theorem Rebuild.jumpIfZero (n : Nat) : Rebuild.Statement (.jumpIfZero n) := by
  intro k h; simp_all [Instr.operand, Instr.mnemonic, Mnemonic.instr]

theorem Rebuild.halt : Rebuild.Statement .halt := fun _ _ => rfl

theorem Rebuild.jumpIfNotZero (n : Nat) : Rebuild.Statement (.jumpIfNotZero n) := by
  intro k h; simp_all [Instr.operand, Instr.mnemonic, Mnemonic.instr]

theorem Rebuild.jumpIfGreaterThanZero (n : Nat) : Rebuild.Statement (.jumpIfGreaterThanZero n) := by
  intro k h; simp_all [Instr.operand, Instr.mnemonic, Mnemonic.instr]

/-- The word of a well-formed instruction is its opcode number times 100 plus its operand digits, under any assignment
(30_encoding R80, R102). -/
def Compose.Statement (i : Instr) : Prop :=
  ∀ a : OpcodeAssignment, i.wf = true →
    (i.operand = .none ∧ encode a i = .ok (BitVec.ofNat 16 (a.number i.mnemonic * 100))) ∨
      ∃ n, i.operand = .immediate n ∧ encode a i = .ok (BitVec.ofNat 16 (a.number i.mnemonic * 100 + n))

/-- The case of an instruction that has operand digits. -/
theorem Compose.of_immediate {i : Instr} {n : Nat} (hi : i.operand = .immediate n) (hw : i.wf = true → n < 100) :
    Compose.Statement i := by
  intro a h
  exact .inr ⟨n, hi, by rw [encode, hi, encoderBlock, if_neg (Nat.not_le.2 (hw h))]⟩

theorem Compose.read (n : Nat) : Compose.Statement (.read n) :=
  Compose.of_immediate rfl fun h => of_decide_eq_true h

theorem Compose.write (n : Nat) : Compose.Statement (.write n) :=
  Compose.of_immediate rfl fun h => of_decide_eq_true h

theorem Compose.writeAccumulator : Compose.Statement .writeAccumulator := fun _ _ => .inl ⟨rfl, rfl⟩

theorem Compose.readImmediate : Compose.Statement .readImmediate := fun _ _ => .inl ⟨rfl, rfl⟩

theorem Compose.load (n : Nat) : Compose.Statement (.load n) :=
  Compose.of_immediate rfl fun h => of_decide_eq_true h

theorem Compose.store (n : Nat) : Compose.Statement (.store n) :=
  Compose.of_immediate rfl fun h => of_decide_eq_true h

theorem Compose.loadImmediate (n : Nat) : Compose.Statement (.loadImmediate n) :=
  Compose.of_immediate rfl fun h => of_decide_eq_true h

theorem Compose.add (n : Nat) : Compose.Statement (.add n) :=
  Compose.of_immediate rfl fun h => of_decide_eq_true h

theorem Compose.sub (n : Nat) : Compose.Statement (.sub n) :=
  Compose.of_immediate rfl fun h => of_decide_eq_true h

theorem Compose.div (n : Nat) : Compose.Statement (.div n) :=
  Compose.of_immediate rfl fun h => of_decide_eq_true h

theorem Compose.mod (n : Nat) : Compose.Statement (.mod n) :=
  Compose.of_immediate rfl fun h => of_decide_eq_true h

theorem Compose.mul (n : Nat) : Compose.Statement (.mul n) :=
  Compose.of_immediate rfl fun h => of_decide_eq_true h

theorem Compose.addImmediate (n : Nat) : Compose.Statement (.addImmediate n) :=
  Compose.of_immediate rfl fun h => of_decide_eq_true h

theorem Compose.subImmediate (n : Nat) : Compose.Statement (.subImmediate n) :=
  Compose.of_immediate rfl fun h => of_decide_eq_true h

theorem Compose.divImmediate (n : Nat) : Compose.Statement (.divImmediate n) :=
  Compose.of_immediate rfl fun h => of_decide_eq_true h

theorem Compose.modImmediate (n : Nat) : Compose.Statement (.modImmediate n) :=
  Compose.of_immediate rfl fun h => of_decide_eq_true h

theorem Compose.mulImmediate (n : Nat) : Compose.Statement (.mulImmediate n) :=
  Compose.of_immediate rfl fun h => of_decide_eq_true h

theorem Compose.jump (n : Nat) : Compose.Statement (.jump n) :=
  Compose.of_immediate rfl fun h => of_decide_eq_true h

theorem Compose.jumpIfNegative (n : Nat) : Compose.Statement (.jumpIfNegative n) :=
  Compose.of_immediate rfl fun h => of_decide_eq_true h

theorem Compose.jumpIfZero (n : Nat) : Compose.Statement (.jumpIfZero n) :=
  Compose.of_immediate rfl fun h => of_decide_eq_true h

theorem Compose.halt : Compose.Statement .halt := fun _ _ => .inl ⟨rfl, rfl⟩

theorem Compose.jumpIfNotZero (n : Nat) : Compose.Statement (.jumpIfNotZero n) :=
  Compose.of_immediate rfl fun h => of_decide_eq_true h

theorem Compose.jumpIfGreaterThanZero (n : Nat) : Compose.Statement (.jumpIfGreaterThanZero n) :=
  Compose.of_immediate rfl fun h => of_decide_eq_true h

end Sys2Proof.Laws
end

