-- ==== Sys2Proof/Laws/Step.lean ====
section
/-! SUPPORT. Everything a step of the core can do, said once. -/

namespace Sys2Proof.Machine

/-- What a step can do (30_encoding R90 to R93, 40_io R126). -/
inductive StepEffect (s : State) : State → Prop where
  /-- IDLE, HALTED, FAULTED, or WAIT_INPUT without an answer: nothing changes -/
  | rests : s.status ≠ .running → StepEffect s s
  /-- the fetch failed its bounds check -/
  | fetchFaults : s.status = .running → s.cfg.memSize ≤ uval s.pc →
      StepEffect s (s.raise (.addressOutOfBounds (uval s.pc)))
  /-- the fetched word has no opcode of the table -/
  | opcodeFaults (e : DecodeError) : s.status = .running → uval s.pc < s.cfg.memSize →
      decode s.cfg.opcodes (s.cell (uval s.pc)) = .error e →
      StepEffect s ((s.latch (s.cell (uval s.pc))).raise .invalidOpcode)
  /-- the fetched instruction executes -/
  | executes (i : Instr) (t : State) : s.status = .running → uval s.pc < s.cfg.memSize →
      decode s.cfg.opcodes (s.cell (uval s.pc)) = .ok i → i.wf = true →
      exec i (s.latch (s.cell (uval s.pc))) = .next t → Effect i (s.latch (s.cell (uval s.pc))) t → StepEffect s t
  /-- the waiting READ or READ-IMMEDIATE takes its answer -/
  | resumes (i : Instr) (t : State) : s.status = .waitInput → s.console ≠ [] → i.takesInput = true →
      decode s.cfg.opcodes s.ir = .ok i → i.wf = true → exec i s = .next t → Effect i s t → StepEffect s t

/-- The address a decoded instruction accesses is the operand field of its word (30_encoding R82). -/
theorem decode_number {a : OpcodeAssignment} {w : Word} {i : Instr} (h : decode a w = .ok i) (hi : i.usesMemory = true) :
    i.number = operandField w := by
  obtain ⟨m, _, rfl⟩ := decode_ok.1 h
  cases m <;> first | rfl | cases hi

theorem step_running {s : State} (hs : s.status = .running) (hp : uval s.pc < s.cfg.memSize) :
    step s = decodeExecute s (s.cell (uval s.pc)) := by
  simp [step, coreStep, hs, cycle, memRead_below hp]

theorem step_fetch_fault {s : State} (hs : s.status = .running) (hp : s.cfg.memSize ≤ uval s.pc) :
    step s = .next (s.raise (.addressOutOfBounds (uval s.pc))) := by
  simp [step, coreStep, hs, cycle, memRead_beyond hp]

theorem decodeExecute_ok {s : State} {w : Word} {i : Instr} (h : decode s.cfg.opcodes w = .ok i) :
    decodeExecute s w = exec i (s.latch w) := by simp [decodeExecute, h]

theorem decodeExecute_error {s : State} {w : Word} {e : DecodeError} (h : decode s.cfg.opcodes w = .error e) :
    decodeExecute s w = .next ((s.latch w).raise .invalidOpcode) := by simp [decodeExecute, h]

/-- An answered wait goes on with the READ or READ-IMMEDIATE that `ir` holds. -/
theorem resume_answered {s : State} {i : Instr} (hc : s.console ≠ []) (hi : i.takesInput = true)
    (hd : decode s.cfg.opcodes s.ir = .ok i) : resume s = exec i s := by
  unfold resume
  cases h : s.console with
  | nil => exact absurd h hc
  | cons r rest => rw [hd]; cases i <;> first | rfl | cases hi

/-- A next state out of a wait that has its answer comes from a READ or READ-IMMEDIATE. -/
theorem resume_next {s t : State} (hc : s.console ≠ []) (h : resume s = .next t) :
    ∃ i, i.takesInput = true ∧ decode s.cfg.opcodes s.ir = .ok i ∧ exec i s = .next t := by
  unfold resume at h
  cases hk : s.console with
  | nil => exact absurd hk hc
  | cons r rest =>
    rw [hk] at h
    cases hd : decode s.cfg.opcodes s.ir with
    | error e => rw [hd] at h; cases h
    | ok i => rw [hd] at h; cases i <;> first | exact ⟨_, rfl, rfl, h⟩ | cases h

/-- Inversion of the step. -/
theorem step_effect {s t : State} (h : step s = .next t) : StepEffect s t := by
  cases hs : s.status with
  | idle => rw [step, coreStep, hs] at h; cases h; exact .rests (by simp [hs])
  | halted => rw [step, coreStep, hs] at h; cases h; exact .rests (by simp [hs])
  | faulted => rw [step, coreStep, hs] at h; cases h; exact .rests (by simp [hs])
  | running =>
    rcases Nat.lt_or_ge (uval s.pc) s.cfg.memSize with hp | hp
    · rw [step_running hs hp] at h
      cases hd : decode s.cfg.opcodes (s.cell (uval s.pc)) with
      | ok i =>
        rw [decodeExecute_ok hd] at h
        exact .executes i t hs hp hd (decode_wf hd) h (exec_effect (decode_wf hd) h)
      | error e => rw [decodeExecute_error hd] at h; cases h; exact .opcodeFaults e hs hp hd
    · rw [step_fetch_fault hs hp] at h; cases h; exact .fetchFaults hs hp
  | waitInput =>
    rw [step, coreStep, hs] at h
    by_cases hc : s.console = []
    · simp only [resume, hc] at h; cases h; exact .rests (by simp [hs])
    · obtain ⟨i, hi, hd, he⟩ := resume_next hc h
      exact .resumes i t hs hc hi hd (decode_wf hd) he (exec_effect (decode_wf hd) he)

end Sys2Proof.Machine
end

