-- ==== Sys2Proof/Tests/Slice0.lean ====
section
/-! SUPPORT. The model's own tests. Expected values are those of spec/95_test_vectors.md or of a rule's own example, named at
each test. The second half shows, for each statement with hypotheses, states and operands that meet them. -/

open Sys2Proof Sys2Proof.Machine Sys2Proof.Claims

namespace Sys2Proof.Tests

/-! ### Helpers -/

/-- The default parameters with another number of cells. -/
def cfgOf (n : Nat) : Config := { Config.standard with memSize := n }

/-- A running core with N = `n` cells, the accumulator and `pc` given, and the listed cells. -/
def st (n : Nat) (acc : Int) (pc : Nat) (cells : Memory) (console : List Answer := []) : State :=
  { State.resetWith (cfgOf n) with
    acc := bits16 acc, pc := BitVec.ofNat 16 pc, status := .running, mem := cells, console := console }

/-- What a test looks at: the accumulator, `pc`, the status, the fault and its address. -/
structure View where
  acc : Int
  pc : Nat
  status : Status
  faultKind : FaultKind
  faultAddr : Nat
  deriving DecidableEq

/-- The view of the state a step leaves. -/
def view (r : Result) : Option View :=
  match r with
  | .next t => some ⟨sval t.acc, uval t.pc, t.status, t.faultKind, uval t.faultAddr⟩
  | _ => none

/-- The error of a computation that failed. -/
def errorOf {ε α : Type} (r : Except ε α) : Option ε :=
  match r with
  | .ok _ => none
  | .error e => some e

/-- One cell of the state a step leaves. -/
def cellAfter (r : Result) (a : Nat) : Option Word :=
  match r with
  | .next t => some (t.cell a)
  | _ => none

/-- The output of the state a step leaves. -/
def outputAfter (r : Result) : Option (List Int) :=
  match r with
  | .next t => some t.output
  | _ => none

/-! ### Well-formedness: an ill-formed term for each check -/

/-- Operand 99 is in range for every instruction (30_encoding R82). -/
theorem test_wf_accepts :
    Instr.wf (.read 99) = true ∧
    Instr.wf (.write 99) = true ∧
    Instr.wf .writeAccumulator = true ∧
    Instr.wf .readImmediate = true ∧
    Instr.wf (.load 99) = true ∧
    Instr.wf (.store 99) = true ∧
    Instr.wf (.loadImmediate 99) = true ∧
    Instr.wf (.add 99) = true ∧
    Instr.wf (.sub 99) = true ∧
    Instr.wf (.div 99) = true ∧
    Instr.wf (.mod 99) = true ∧
    Instr.wf (.mul 99) = true ∧
    Instr.wf (.addImmediate 99) = true ∧
    Instr.wf (.subImmediate 99) = true ∧
    Instr.wf (.divImmediate 99) = true ∧
    Instr.wf (.modImmediate 99) = true ∧
    Instr.wf (.mulImmediate 99) = true ∧
    Instr.wf (.jump 99) = true ∧
    Instr.wf (.jumpIfNegative 99) = true ∧
    Instr.wf (.jumpIfZero 99) = true ∧
    Instr.wf .halt = true ∧
    Instr.wf (.jumpIfNotZero 99) = true ∧
    Instr.wf (.jumpIfGreaterThanZero 99) = true := by decide

/-- Operand 100 is refused for every instruction that has one (30_encoding R82). -/
theorem test_wf_refuses_operand_100 :
    Instr.wf (.read 100) = false ∧
    Instr.wf (.write 100) = false ∧
    Instr.wf (.load 100) = false ∧
    Instr.wf (.store 100) = false ∧
    Instr.wf (.loadImmediate 100) = false ∧
    Instr.wf (.add 100) = false ∧
    Instr.wf (.sub 100) = false ∧
    Instr.wf (.div 100) = false ∧
    Instr.wf (.mod 100) = false ∧
    Instr.wf (.mul 100) = false ∧
    Instr.wf (.addImmediate 100) = false ∧
    Instr.wf (.subImmediate 100) = false ∧
    Instr.wf (.divImmediate 100) = false ∧
    Instr.wf (.modImmediate 100) = false ∧
    Instr.wf (.mulImmediate 100) = false ∧
    Instr.wf (.jump 100) = false ∧
    Instr.wf (.jumpIfNegative 100) = false ∧
    Instr.wf (.jumpIfZero 100) = false ∧
    Instr.wf (.jumpIfNotZero 100) = false ∧
    Instr.wf (.jumpIfGreaterThanZero 100) = false := by decide

/-- N = 0 and N = 65536 are out of range; 1 and 65535 are in (00_scope R7). -/
theorem test_wf_refuses_memSize :
    (cfgOf 0).wf = false ∧ (cfgOf 65536).wf = false ∧ (cfgOf 1).wf = true ∧ (cfgOf 65535).wf = true := by decide

/-- A permutation inside a range is allowed; a repeated, missing or foreign mnemonic is not, in each range (30_encoding R85). -/
theorem test_wf_refuses_assignments :
    OpcodeAssignment.wf { OpcodeAssignment.standard with memory := [.store, .load, .loadImmediate] } = true ∧
    OpcodeAssignment.wf { OpcodeAssignment.standard with io := [.read, .read, .writeAccumulator, .readImmediate] } = false ∧
    OpcodeAssignment.wf { OpcodeAssignment.standard with memory := [.load, .store] } = false ∧
    OpcodeAssignment.wf { OpcodeAssignment.standard with memArith := [.add, .sub, .div, .mod, .halt] } = false ∧
    OpcodeAssignment.wf { OpcodeAssignment.standard with immArith := [] } = false := by decide

/-! ### Decoding and encoding -/

/-- I/O: the words 1007, 1109, 1250, 1342, each written out as opcode × 100 + operand in binary (30_encoding R80, R84). -/
theorem test_decode_io :
    (decode OpcodeAssignment.standard 0b0000001111101111#16).toOption = some (.read 7) ∧
    (decode OpcodeAssignment.standard 0b0000010001010101#16).toOption = some (.write 9) ∧
    (decode OpcodeAssignment.standard 0b0000010011100010#16).toOption = some .writeAccumulator ∧
    (decode OpcodeAssignment.standard 0b0000010100111110#16).toOption = some .readImmediate := by decide

/-- memory: the words 2007, 2104, 2299, each written out as opcode × 100 + operand in binary (30_encoding R80, R84). -/
theorem test_decode_memory :
    (decode OpcodeAssignment.standard 0b0000011111010111#16).toOption = some (.load 7) ∧
    (decode OpcodeAssignment.standard 0b0000100000111000#16).toOption = some (.store 4) ∧
    (decode OpcodeAssignment.standard 0b0000100011111011#16).toOption = some (.loadImmediate 99) := by decide

/-- memArith: the words 3008, 3120, 3230, 3330, 3440, each written out as opcode × 100 + operand in binary (30_encoding R80, R84). -/
theorem test_decode_memArith :
    (decode OpcodeAssignment.standard 0b0000101111000000#16).toOption = some (.add 8) ∧
    (decode OpcodeAssignment.standard 0b0000110000110000#16).toOption = some (.sub 20) ∧
    (decode OpcodeAssignment.standard 0b0000110010011110#16).toOption = some (.div 30) ∧
    (decode OpcodeAssignment.standard 0b0000110100000010#16).toOption = some (.mod 30) ∧
    (decode OpcodeAssignment.standard 0b0000110101110000#16).toOption = some (.mul 40) := by decide

/-- immArith: the words 3505, 3601, 3707, 3807, 3950, each written out as opcode × 100 + operand in binary (30_encoding R80, R84). -/
theorem test_decode_immArith :
    (decode OpcodeAssignment.standard 0b0000110110110001#16).toOption = some (.addImmediate 5) ∧
    (decode OpcodeAssignment.standard 0b0000111000010001#16).toOption = some (.subImmediate 1) ∧
    (decode OpcodeAssignment.standard 0b0000111001111011#16).toOption = some (.divImmediate 7) ∧
    (decode OpcodeAssignment.standard 0b0000111011011111#16).toOption = some (.modImmediate 7) ∧
    (decode OpcodeAssignment.standard 0b0000111101101110#16).toOption = some (.mulImmediate 50) := by decide

/-- control: the words 4003, 4110, 4203, 4357, 4401, 4500, each written out as opcode × 100 + operand in binary (30_encoding R80, R84). -/
theorem test_decode_control :
    (decode OpcodeAssignment.standard 0b0000111110100011#16).toOption = some (.jump 3) ∧
    (decode OpcodeAssignment.standard 0b0001000000001110#16).toOption = some (.jumpIfNegative 10) ∧
    (decode OpcodeAssignment.standard 0b0001000001101011#16).toOption = some (.jumpIfZero 3) ∧
    (decode OpcodeAssignment.standard 0b0001000100000101#16).toOption = some .halt ∧
    (decode OpcodeAssignment.standard 0b0001000100110001#16).toOption = some (.jumpIfNotZero 1) ∧
    (decode OpcodeAssignment.standard 0b0001000110010100#16).toOption = some (.jumpIfGreaterThanZero 0) := by decide

/-- 95_test_vectors L2.1: the words that are no instruction, and the edges of the ranges. -/
theorem test_decode_refuses :
    errorOf (decode OpcodeAssignment.standard 0x0000#16) = some (.invalidOpcode 0) ∧
    errorOf (decode OpcodeAssignment.standard 0x03E7#16) = some (.invalidOpcode 9) ∧
    errorOf (decode OpcodeAssignment.standard 0x0578#16) = some (.invalidOpcode 14) ∧
    errorOf (decode OpcodeAssignment.standard 0x08FC#16) = some (.invalidOpcode 23) ∧
    errorOf (decode OpcodeAssignment.standard 0x0BB7#16) = some (.invalidOpcode 29) ∧
    errorOf (decode OpcodeAssignment.standard 0x11F8#16) = some (.invalidOpcode 46) ∧
    errorOf (decode OpcodeAssignment.standard 0x7FFF#16) = some (.invalidOpcode 327) ∧
    errorOf (decode OpcodeAssignment.standard 0xFFFF#16) = some (.invalidOpcode 655) := by decide

/-- 95_test_vectors L2.2: the encoder block. -/
theorem test_encoder :
    (encoderBlock OpcodeAssignment.standard .read (.immediate 7)).toOption = some 1007#16 ∧
    (encoderBlock OpcodeAssignment.standard .writeAccumulator .none).toOption = some 1200#16 ∧
    (encoderBlock OpcodeAssignment.standard .writeAccumulator (.immediate 5)).toOption = some 1205#16 ∧
    (encoderBlock OpcodeAssignment.standard .load .none).toOption = some 2000#16 ∧
    (encoderBlock OpcodeAssignment.standard .jump (.immediate 99)).toOption = some 4099#16 ∧
    errorOf (encoderBlock OpcodeAssignment.standard .jump (.immediate 100)) = some .operandOutOfRange ∧
    errorOf (encoderBlock OpcodeAssignment.standard .store (.immediate 250)) = some .operandOutOfRange ∧
    errorOf (encoderBlock OpcodeAssignment.standard .load (.labelName "x")) = some .unresolvedLabel ∧
    errorOf (encoderBlock OpcodeAssignment.standard .store (.variableName "y")) = some .unresolvedVariable := by decide

/-! ### One step of each instruction -/

/-- 95_test_vectors L2.3: READ with an answer stores its two's complement pattern. -/
theorem test_read_stores :
    cellAfter (step (st 100 0 0 [(0, 1007)] [.value (-4)])) 7 = some 0xFFFC ∧
    cellAfter (step (st 100 0 0 [(0, 1007)] [.value (-32768)])) 7 = some 0x8000 ∧
    view (step (st 100 0 0 [(0, 1007)] [.value 15])) = some ⟨0, 1, .running, .none, 0⟩ := by decide

/-- 95_test_vectors L2.3: out of range, malformed, and the order of the input check and the bounds check; with no answer the core waits. -/
theorem test_read_faults :
    view (step (st 100 0 0 [(0, 1007)] [.value 32768])) = some ⟨0, 0, .faulted, .invalidReadInput, 0⟩ ∧
    view (step (st 5 0 0 [(0, 1007)] [.value 1])) = some ⟨0, 0, .faulted, .addressOutOfBounds, 7⟩ ∧
    view (step (st 5 0 0 [(0, 1007)] [.malformed])) = some ⟨0, 0, .faulted, .invalidReadInput, 0⟩ ∧
    view (step (st 100 0 0 [(0, 1007)])) = some ⟨0, 0, .waitInput, .none, 0⟩ := by decide

/-- 95_test_vectors L2.3: WRITE prints the signed value; out of bounds it prints nothing. -/
theorem test_write_sends :
    outputAfter (step (st 100 0 0 [(0, 1109), (9, 0xFFFF)])) = some [-1] ∧
    outputAfter (step (st 100 0 0 [(0, 1109), (9, 0x10CC)])) = some [4300] ∧
    outputAfter (step (st 5 0 0 [(0, 1109)])) = some [] ∧
    view (step (st 5 0 0 [(0, 1109)])) = some ⟨0, 0, .faulted, .addressOutOfBounds, 9⟩ := by decide

/-- 95_test_vectors L2.3: the operand is ignored. -/
theorem test_writeAccumulator_sends :
    outputAfter (step (st 100 (-32768) 0 [(0, 1200)])) = some [-32768] ∧
    outputAfter (step (st 100 7 0 [(0, 1250)])) = some [7] := by decide

/-- 95_test_vectors L2.3: the operand is ignored; a fault keeps acc. -/
theorem test_readImmediate_takes :
    view (step (st 100 3 0 [(0, 1300)] [.value (-4)])) = some ⟨-4, 1, .running, .none, 0⟩ ∧
    view (step (st 100 3 0 [(0, 1342)] [.malformed])) = some ⟨3, 0, .faulted, .invalidReadInput, 0⟩ := by decide

/-- 95_test_vectors L2.4, L1.5. -/
theorem test_load :
    view (step (st 100 0 0 [(0, 2007), (7, 0x8000)])) = some ⟨-32768, 1, .running, .none, 0⟩ ∧
    view (step (st 100 0 0 [(0, 2007), (7, 0x089F)])) = some ⟨2207, 1, .running, .none, 0⟩ ∧
    view (step (st 10 0 0 [(0, 2050)])) = some ⟨0, 0, .faulted, .addressOutOfBounds, 50⟩ ∧
    view (step (st 10 1 0 [(0, 2009)])) = some ⟨0, 1, .running, .none, 0⟩ := by decide

/-- 95_test_vectors L2.4. -/
theorem test_store :
    cellAfter (step (st 100 4300 0 [(0, 2104)])) 4 = some 0x10CC ∧
    cellAfter (step (st 100 (-1) 0 [(0, 2104)])) 4 = some 0xFFFF ∧
    view (step (st 3 5 0 [(0, 2104)])) = some ⟨5, 0, .faulted, .addressOutOfBounds, 4⟩ := by decide

/-- 95_test_vectors L2.4. -/
theorem test_loadImmediate :
    view (step (st 100 0 0 [(0, 2299)])) = some ⟨99, 1, .running, .none, 0⟩ ∧
    view (step (st 100 (-7) 0 [(0, 2200)])) = some ⟨0, 1, .running, .none, 0⟩ := by decide

/-- 95_test_vectors L2.5. -/
theorem test_add :
    view (step (st 100 15 0 [(0, 3008), (8, 0xFFFC)])) = some ⟨11, 1, .running, .none, 0⟩ ∧
    view (step (st 100 32767 0 [(0, 3008), (8, 1)])) = some ⟨32767, 0, .faulted, .arithmeticOverflow, 0⟩ ∧
    view (step (st 100 (-32768) 0 [(0, 3008), (8, 0xFFFF)])) = some ⟨-32768, 0, .faulted, .arithmeticOverflow, 0⟩ ∧
    view (step (st 100 32767 0 [(0, 3008), (8, 0x8000)])) = some ⟨-1, 1, .running, .none, 0⟩ := by decide

/-- 95_test_vectors L2.5. -/
theorem test_sub :
    view (step (st 100 5 0 [(0, 3108), (8, 9)])) = some ⟨-4, 1, .running, .none, 0⟩ ∧
    view (step (st 100 0 0 [(0, 3108), (8, 0x8000)])) = some ⟨0, 0, .faulted, .arithmeticOverflow, 0⟩ ∧
    view (step (st 100 (-1) 0 [(0, 3108), (8, 0x7FFF)])) = some ⟨-32768, 1, .running, .none, 0⟩ := by decide

/-- 95_test_vectors L2.5. -/
theorem test_div :
    view (step (st 100 (-7) 0 [(0, 3208), (8, 2)])) = some ⟨-3, 1, .running, .none, 0⟩ ∧
    view (step (st 100 7 0 [(0, 3208), (8, 0xFFFE)])) = some ⟨-3, 1, .running, .none, 0⟩ ∧
    view (step (st 100 (-7) 0 [(0, 3208), (8, 0xFFFE)])) = some ⟨3, 1, .running, .none, 0⟩ ∧
    view (step (st 100 (-32768) 0 [(0, 3208), (8, 0xFFFF)])) = some ⟨-32768, 0, .faulted, .arithmeticOverflow, 0⟩ ∧
    view (step (st 100 32767 0 [(0, 3208), (8, 0xFFFF)])) = some ⟨-32767, 1, .running, .none, 0⟩ ∧
    view (step (st 100 9 0 [(0, 3208)])) = some ⟨9, 0, .faulted, .divisionByZero, 0⟩ := by decide

/-- 95_test_vectors L2.5. -/
theorem test_mod :
    view (step (st 100 (-7) 0 [(0, 3308), (8, 2)])) = some ⟨-1, 1, .running, .none, 0⟩ ∧
    view (step (st 100 7 0 [(0, 3308), (8, 0xFFFE)])) = some ⟨1, 1, .running, .none, 0⟩ ∧
    view (step (st 100 (-7) 0 [(0, 3308), (8, 0xFFFE)])) = some ⟨-1, 1, .running, .none, 0⟩ ∧
    view (step (st 100 (-32768) 0 [(0, 3308), (8, 0xFFFF)])) = some ⟨0, 1, .running, .none, 0⟩ ∧
    view (step (st 100 9 0 [(0, 3308)])) = some ⟨9, 0, .faulted, .divisionByZero, 0⟩ := by decide

/-- 95_test_vectors L2.5. -/
theorem test_mul :
    view (step (st 100 200 0 [(0, 3408), (8, 200)])) = some ⟨200, 0, .faulted, .arithmeticOverflow, 0⟩ ∧
    view (step (st 100 (-32768) 0 [(0, 3408), (8, 0xFFFF)])) = some ⟨-32768, 0, .faulted, .arithmeticOverflow, 0⟩ ∧
    view (step (st 100 (-32768) 0 [(0, 3408), (8, 1)])) = some ⟨-32768, 1, .running, .none, 0⟩ ∧
    view (step (st 100 181 0 [(0, 3408), (8, 181)])) = some ⟨32761, 1, .running, .none, 0⟩ ∧
    view (step (st 100 (-3) 0 [(0, 3408), (8, 6)])) = some ⟨-18, 1, .running, .none, 0⟩ := by decide

/-- 95_test_vectors L2.5: bounds before the zero divisor, N = 10. -/
theorem test_arith_check_order :
    view (step (st 10 9 0 [(0, 3250)])) = some ⟨9, 0, .faulted, .addressOutOfBounds, 50⟩ ∧
    view (step (st 10 9 0 [(0, 3050)])) = some ⟨9, 0, .faulted, .addressOutOfBounds, 50⟩ := by decide

/-- 95_test_vectors L2.5, immediate forms. -/
theorem test_addImmediate :
    view (step (st 100 7 0 [(0, 3505)])) = some ⟨12, 1, .running, .none, 0⟩ ∧
    view (step (st 100 32700 0 [(0, 3567)])) = some ⟨32767, 1, .running, .none, 0⟩ ∧
    view (step (st 100 32767 0 [(0, 3501)])) = some ⟨32767, 0, .faulted, .arithmeticOverflow, 0⟩ ∧
    view (step (st 100 4 0 [(0, 3500)])) = some ⟨4, 1, .running, .none, 0⟩ := by decide

/-- 95_test_vectors L2.5, immediate forms. -/
theorem test_subImmediate :
    view (step (st 100 0 0 [(0, 3601)])) = some ⟨-1, 1, .running, .none, 0⟩ ∧
    view (step (st 100 (-32700) 0 [(0, 3668)])) = some ⟨-32768, 1, .running, .none, 0⟩ ∧
    view (step (st 100 (-32768) 0 [(0, 3601)])) = some ⟨-32768, 0, .faulted, .arithmeticOverflow, 0⟩ := by decide

/-- 95_test_vectors L2.5, immediate forms. -/
theorem test_divImmediate :
    view (step (st 100 100 0 [(0, 3707)])) = some ⟨14, 1, .running, .none, 0⟩ ∧
    view (step (st 100 (-7) 0 [(0, 3702)])) = some ⟨-3, 1, .running, .none, 0⟩ ∧
    view (step (st 100 5 0 [(0, 3799)])) = some ⟨0, 1, .running, .none, 0⟩ ∧
    view (step (st 100 (-32768) 0 [(0, 3701)])) = some ⟨-32768, 1, .running, .none, 0⟩ ∧
    view (step (st 100 5 0 [(0, 3700)])) = some ⟨5, 0, .faulted, .divisionByZero, 0⟩ := by decide

/-- 95_test_vectors L2.5, immediate forms. -/
theorem test_modImmediate :
    view (step (st 100 100 0 [(0, 3807)])) = some ⟨2, 1, .running, .none, 0⟩ ∧
    view (step (st 100 (-32768) 0 [(0, 3807)])) = some ⟨-1, 1, .running, .none, 0⟩ ∧
    view (step (st 100 (-7) 0 [(0, 3802)])) = some ⟨-1, 1, .running, .none, 0⟩ ∧
    view (step (st 100 5 0 [(0, 3801)])) = some ⟨0, 1, .running, .none, 0⟩ ∧
    view (step (st 100 5 0 [(0, 3800)])) = some ⟨5, 0, .faulted, .divisionByZero, 0⟩ := by decide

/-- 95_test_vectors L2.5, immediate forms. -/
theorem test_mulImmediate :
    view (step (st 100 86 0 [(0, 3950)])) = some ⟨4300, 1, .running, .none, 0⟩ ∧
    view (step (st 100 330 0 [(0, 3999)])) = some ⟨32670, 1, .running, .none, 0⟩ ∧
    view (step (st 100 331 0 [(0, 3999)])) = some ⟨331, 0, .faulted, .arithmeticOverflow, 0⟩ ∧
    view (step (st 100 (-331) 0 [(0, 3999)])) = some ⟨-331, 0, .faulted, .arithmeticOverflow, 0⟩ ∧
    view (step (st 100 (-5) 0 [(0, 3900)])) = some ⟨0, 1, .running, .none, 0⟩ := by decide

/-- 95_test_vectors L2.6: target 10, instruction at address 2. -/
theorem test_jumpIfNegative :
    view (step (st 100 (-32768) 2 [(2, 4110)])) = some ⟨-32768, 10, .running, .none, 0⟩ ∧
    view (step (st 100 (-1) 2 [(2, 4110)])) = some ⟨-1, 10, .running, .none, 0⟩ ∧
    view (step (st 100 0 2 [(2, 4110)])) = some ⟨0, 3, .running, .none, 0⟩ ∧
    view (step (st 100 1 2 [(2, 4110)])) = some ⟨1, 3, .running, .none, 0⟩ ∧
    view (step (st 100 32767 2 [(2, 4110)])) = some ⟨32767, 3, .running, .none, 0⟩ := by decide

/-- 95_test_vectors L2.6: target 10, instruction at address 2. -/
theorem test_jumpIfZero :
    view (step (st 100 (-32768) 2 [(2, 4210)])) = some ⟨-32768, 3, .running, .none, 0⟩ ∧
    view (step (st 100 (-1) 2 [(2, 4210)])) = some ⟨-1, 3, .running, .none, 0⟩ ∧
    view (step (st 100 0 2 [(2, 4210)])) = some ⟨0, 10, .running, .none, 0⟩ ∧
    view (step (st 100 1 2 [(2, 4210)])) = some ⟨1, 3, .running, .none, 0⟩ ∧
    view (step (st 100 32767 2 [(2, 4210)])) = some ⟨32767, 3, .running, .none, 0⟩ := by decide

/-- 95_test_vectors L2.6: target 10, instruction at address 2. -/
theorem test_jumpIfNotZero :
    view (step (st 100 (-32768) 2 [(2, 4410)])) = some ⟨-32768, 10, .running, .none, 0⟩ ∧
    view (step (st 100 (-1) 2 [(2, 4410)])) = some ⟨-1, 10, .running, .none, 0⟩ ∧
    view (step (st 100 0 2 [(2, 4410)])) = some ⟨0, 3, .running, .none, 0⟩ ∧
    view (step (st 100 1 2 [(2, 4410)])) = some ⟨1, 10, .running, .none, 0⟩ ∧
    view (step (st 100 32767 2 [(2, 4410)])) = some ⟨32767, 10, .running, .none, 0⟩ := by decide

/-- 95_test_vectors L2.6: target 10, instruction at address 2. -/
theorem test_jumpIfGreaterThanZero :
    view (step (st 100 (-32768) 2 [(2, 4510)])) = some ⟨-32768, 3, .running, .none, 0⟩ ∧
    view (step (st 100 (-1) 2 [(2, 4510)])) = some ⟨-1, 3, .running, .none, 0⟩ ∧
    view (step (st 100 0 2 [(2, 4510)])) = some ⟨0, 3, .running, .none, 0⟩ ∧
    view (step (st 100 1 2 [(2, 4510)])) = some ⟨1, 10, .running, .none, 0⟩ ∧
    view (step (st 100 32767 2 [(2, 4510)])) = some ⟨32767, 10, .running, .none, 0⟩ := by decide

/-- 95_test_vectors L2.6: a target beyond N is stored, and faults at the next fetch. -/
theorem test_jump :
    view (step (st 100 0 0 [(0, 4003)])) = some ⟨0, 3, .running, .none, 0⟩ ∧
    view (step (st 10 0 0 [(0, 4050)])) = some ⟨0, 50, .running, .none, 0⟩ ∧
    view (step (st 10 0 50 [])) = some ⟨0, 50, .faulted, .addressOutOfBounds, 50⟩ := by decide

/-- 95_test_vectors L2.6: HALT at address 6 leaves pc and shows word 4357 in ir, opc and opd. -/
theorem test_halt :
    view (step (st 100 0 6 [(6, 4357)])) = some ⟨0, 6, .halted, .none, 0⟩ ∧
    (match step (st 100 0 6 [(6, 4357)]) with
      | .next t => (t.ir, t.opc, t.opd)
      | _ => (0, 0, 0)) = (4357, 43, 57) := by decide

/-- 95_test_vectors L2.7: an empty cell is InvalidOpcode; beyond the last cell AddressOutOfBounds. -/
theorem test_fetch_faults :
    view (step (st 100 1 1 [(0, 2201)])) = some ⟨1, 1, .faulted, .invalidOpcode, 0⟩ ∧
    view (step (st 1 1 1 [(0, 3501)])) = some ⟨1, 1, .faulted, .addressOutOfBounds, 1⟩ := by decide

/-- The first step after reset runs the placed instruction (L1.2); without it nothing runs in IDLE (10_state R28). -/
theorem test_fetch_from_reset :
    view (step (State.reset.withFetchWord 16 2207)) = some ⟨7, 1, .running, .none, 0⟩ ∧
    view (step State.reset) = some ⟨0, 0, .idle, .none, 0⟩ := by decide

/-- 95_test_vectors L2.7 and 70_reset R263, R265: the load port, then start. -/
theorem test_load_start :
    (hostLoad State.reset 100 4300).1 = .loadError ∧
    (hostLoad (hostStart State.reset) 0 4300).1 = .ignored ∧
    view (step (hostStart (loadImage State.reset [4300]))) = some ⟨0, 0, .halted, .none, 0⟩ := by decide

/-- The snapshot of a HALTED and of a FAULTED core: eight 16-bit patterns, with status codes 3 and 4 and fault code 5, and acc
as `bits16(acc)` (70_reset R267; codes 10_state R28, 60_exceptions R230). -/
theorem test_snapshot_patterns :
    readSnapshot { st 100 (-3) 6 [] with ir := 4357, opc := 43, opd := 57, status := .halted } =
      some ⟨0xFFFD, 6, 4357, 43, 57, 0x0003, 0x0000, 0⟩ ∧
    readSnapshot { st 100 7 1 [] with ir := 3008, opc := 30, opd := 8, status := .faulted, faultKind := .arithmeticOverflow } =
      some ⟨7, 1, 3008, 30, 8, 0x0004, 0x0005, 0⟩ := by decide

/-- 95_test_vectors L2.7: reset while a READ waits; a later answer is ignored. -/
theorem test_answer_after_reset_ignored :
    ∃ t, step (st 100 0 0 [(0, 1007)]) = .next t ∧ (hostAnswer t (.value 1)).console = [.value 1] ∧
      hostAnswer (hostReset t) (.value 1) = hostReset t := ⟨_, rfl, rfl, rfl⟩

/-- Under ARBITRARY a cell nothing has written is the free value of the current reset, a new one after each (20_memory R68). -/
theorem test_arbitrary_cells (c : Config) (h : c.memInit = .arbitrary) (a : Nat) :
    (State.resetWith c).cell a = Config.arbitraryCell 0 a ∧
      (hostReset (State.resetWith c)).cell a = Config.arbitraryCell 1 a := by
  constructor <;> simp [State.cell, State.unlisted, State.resetWith, hostReset, h]

/-- A memory write keeps the canonical form, and writing what an unlisted cell holds removes the entry. -/
theorem test_memory_canonical :
    Memory.write (fun _ => 0) [(3, 1), (9, 2)] 5 7 = [(3, 1), (5, 7), (9, 2)] ∧
    Memory.write (fun _ => 0) [(3, 1), (9, 2)] 3 0 = [(9, 2)] ∧
    Memory.wf 10 (fun _ => 0) [(9, 2), (3, 1)] = false ∧ Memory.wf 9 (fun _ => 0) [(9, 2)] = false ∧
    Memory.wf 10 (fun _ => 0) [(3, 0)] = false := by decide

/-! ### Witnesses: for each statement with hypotheses, states and operands that meet them, clause by clause

Where a statement's only hypotheses are that a state answers a next state, the witness gives that state. -/

/-- ReadStoresTheAnswerOrFaults: the largest value into the last cell; an address one past N; one past each end of the range; a
malformed line; no answer. -/
theorem witness_read :
    ((st 100 0 0 [] [.value 32767]).console = .value 32767 :: [] ∧ InData 32767 ∧ 99 < (st 100 0 0 []).cfg.memSize) ∧
    ((st 5 0 0 [] [.value (-32768)]).console = .value (-32768) :: [] ∧ InData (-32768) ∧ (st 5 0 0 []).cfg.memSize ≤ 5) ∧
    ((st 100 0 0 [] [.value 32768]).console = .value 32768 :: [] ∧ ¬ InData 32768) ∧
    ((st 100 0 0 [] [.malformed]).console = .malformed :: []) ∧ (st 100 0 0 []).console = [] := by decide

/-- WriteSendsTheCell, LoadCopiesTheCell, StoreCopiesAcc, MemoryInterfaceReadsAndWrites: the last cell and the first address
past it. -/
theorem witness_bounds : 99 < (st 100 0 0 []).cfg.memSize ∧ (st 5 0 0 []).cfg.memSize ≤ 5 := by decide

/-- ReadImmediateTakesTheAnswerOrFaults. -/
theorem witness_readImmediate :
    ((st 100 0 0 [] [.value (-32768)]).console = .value (-32768) :: [] ∧ InData (-32768)) ∧
    ((st 100 0 0 [] [.value (-32769)]).console = .value (-32769) :: [] ∧ ¬ InData (-32769)) ∧
    ((st 100 0 0 [] [.malformed]).console = .malformed :: []) ∧ (st 100 0 0 []).console = [] := by decide

/-- ReadWaitsThenTakesTheAnswer: READ 7 fetched with no answer there, with N = 100 and with N = 5. -/
theorem witness_read_waits :
    (Fetches (st 100 0 0 [(0, 1007)]) 1007 ∧
      decode (st 100 0 0 [(0, 1007)]).cfg.opcodes 1007 = .ok (.read 7) ∧ (st 100 0 0 [(0, 1007)]).console = [] ∧
      InData 32767 ∧ 7 < (st 100 0 0 [(0, 1007)]).cfg.memSize) ∧
    (Fetches (st 7 0 0 [(0, 1007)]) 1007 ∧
      decode (st 7 0 0 [(0, 1007)]).cfg.opcodes 1007 = .ok (.read 7) ∧ (st 7 0 0 [(0, 1007)]).console = [] ∧
      InData (-32768) ∧ (st 7 0 0 [(0, 1007)]).cfg.memSize ≤ 7 ∧ ¬ InData 32768) :=
  ⟨⟨by decide, rfl, rfl, by decide, by decide⟩, by decide, rfl, rfl, by decide, by decide, by decide⟩

/-- ReadImmediateWaitsThenTakesTheAnswer. -/
theorem witness_readImmediate_waits :
    Fetches (st 100 0 0 [(0, 1300)]) 1300 ∧
      decode (st 100 0 0 [(0, 1300)]).cfg.opcodes 1300 = .ok .readImmediate ∧ (st 100 0 0 [(0, 1300)]).console = [] ∧
      InData 32767 ∧ ¬ InData 32768 :=
  ⟨by decide, rfl, rfl, by decide, by decide⟩

/-- LoadImmediateSetsAcc: the largest operand. -/
theorem witness_loadImmediate : 99 < 100 := by decide

/-- AddIsExactOrFaults, on either side of each end of the range, and out of bounds. -/
theorem witness_add :
    (8 < (st 100 32766 0 [(8, 1)]).cfg.memSize ∧ InData (sval (st 100 32766 0 [(8, 1)]).acc + sval ((st 100 32766 0 [(8, 1)]).cell 8))) ∧
    (8 < (st 100 32767 0 [(8, 1)]).cfg.memSize ∧ ¬ InData (sval (st 100 32767 0 [(8, 1)]).acc + sval ((st 100 32767 0 [(8, 1)]).cell 8))) ∧
    (st 8 0 0 []).cfg.memSize ≤ 8 := by decide

/-- SubIsExactOrFaults. -/
theorem witness_sub :
    (8 < (st 100 (-32767) 0 [(8, 1)]).cfg.memSize ∧ InData (sval (st 100 (-32767) 0 [(8, 1)]).acc - sval ((st 100 (-32767) 0 [(8, 1)]).cell 8))) ∧
    (8 < (st 100 (-32768) 0 [(8, 1)]).cfg.memSize ∧ ¬ InData (sval (st 100 (-32768) 0 [(8, 1)]).acc - sval ((st 100 (-32768) 0 [(8, 1)]).cell 8))) ∧
    (st 8 0 0 []).cfg.memSize ≤ 8 := by decide

/-- MulIsExactOrFaults. -/
theorem witness_mul :
    (8 < (st 100 (-32768) 0 [(8, 1)]).cfg.memSize ∧ InData (sval (st 100 (-32768) 0 [(8, 1)]).acc * sval ((st 100 (-32768) 0 [(8, 1)]).cell 8))) ∧
    (8 < (st 100 (-32768) 0 [(8, 0xFFFF)]).cfg.memSize ∧ ¬ InData (sval (st 100 (-32768) 0 [(8, 0xFFFF)]).acc * sval ((st 100 (-32768) 0 [(8, 0xFFFF)]).cell 8))) ∧
    (st 8 0 0 []).cfg.memSize ≤ 8 := by decide

/-- DivTruncatesOrFaults, ModKeepsTheSignOrFaults, QuotientAndRemainderFit: a divisor next to each excluded one, and each
excluded one. -/
theorem witness_div :
    (8 < (st 100 (-32768) 0 [(8, 1)]).cfg.memSize ∧ sval ((st 100 (-32768) 0 [(8, 1)]).cell 8) ≠ 0 ∧
      ¬ (sval (st 100 (-32768) 0 [(8, 1)]).acc = -32768 ∧ sval ((st 100 (-32768) 0 [(8, 1)]).cell 8) = -1)) ∧
    (8 < (st 100 (-32767) 0 [(8, 0xFFFF)]).cfg.memSize ∧ sval ((st 100 (-32767) 0 [(8, 0xFFFF)]).cell 8) ≠ 0 ∧
      ¬ (sval (st 100 (-32767) 0 [(8, 0xFFFF)]).acc = -32768 ∧ sval ((st 100 (-32767) 0 [(8, 0xFFFF)]).cell 8) = -1)) ∧
    (8 < (st 100 9 0 []).cfg.memSize ∧ sval ((st 100 9 0 []).cell 8) = 0) ∧
    (8 < (st 100 (-32768) 0 [(8, 0xFFFF)]).cfg.memSize ∧ sval (st 100 (-32768) 0 [(8, 0xFFFF)]).acc = -32768 ∧
      sval ((st 100 (-32768) 0 [(8, 0xFFFF)]).cell 8) = -1) ∧
    (st 8 9 0 []).cfg.memSize ≤ 8 := by decide

/-- AddImmediateIsExactOrFaults, SubImmediateIsExactOrFaults, MulImmediateIsExactOrFaults. -/
theorem witness_immediate_forms :
    InData (sval (st 100 32668 0 []).acc + (99 : Nat)) ∧ ¬ InData (sval (st 100 32669 0 []).acc + (99 : Nat)) ∧
    InData (sval (st 100 (-32669) 0 []).acc - (99 : Nat)) ∧ ¬ InData (sval (st 100 (-32670) 0 []).acc - (99 : Nat)) ∧
    InData (sval (st 100 330 0 []).acc * (99 : Nat)) ∧ ¬ InData (sval (st 100 331 0 []).acc * (99 : Nat)) := by decide

/-- DivImmediateTruncatesOrFaults, ModImmediateKeepsTheSignOrFaults: the divisors 0, 1 and 99. -/
theorem witness_immediate_divisors : (1 : Nat) ≠ 0 ∧ (99 : Nat) ≠ 0 ∧ (0 : Nat) = 0 := by decide

/-- The jumps: a target that faults at the next fetch, the lowest and the highest of them for N = 10. -/
theorem witness_jump_targets :
    (st 10 0 0 []).status = .running ∧ 10 < 100 ∧ (st 10 0 0 []).cfg.memSize ≤ 10 ∧ 99 < 100 ∧
      (st 10 0 0 []).cfg.memSize ≤ 99 := by decide

/-- The four conditional jumps: for each an accumulator at the edge of its predicate on either side. -/
theorem witness_conditional_jumps :
    (sval (st 100 (-1) 0 []).acc < 0 ∧ ¬ sval (st 100 0 0 []).acc < 0) ∧
    (sval (st 100 0 0 []).acc = 0 ∧ ¬ sval (st 100 1 0 []).acc = 0) ∧
    (sval (st 100 (-1) 0 []).acc ≠ 0 ∧ ¬ sval (st 100 0 0 []).acc ≠ 0) ∧
    (0 < sval (st 100 1 0 []).acc ∧ ¬ 0 < sval (st 100 0 0 []).acc) := by decide

/-- StepRunsTheDecodedInstruction: HALT in the last cell. -/
theorem witness_step_runs :
    Fetches (st 100 0 99 [(99, 4399)]) 4399 ∧ decode (st 100 0 99 [(99, 4399)]).cfg.opcodes 4399 = .ok .halt :=
  ⟨by decide, rfl⟩

/-- FetchChecksThePc: a fetch at N, and one at N − 1 with the state its step leaves. -/
theorem witness_fetch :
    ((st 100 0 100 []).status = .running ∧ (st 100 0 100 []).cfg.memSize ≤ uval (st 100 0 100 []).pc) ∧
    ((st 100 0 99 [(99, 4399)]).status = .running ∧
      uval (st 100 0 99 [(99, 4399)]).pc < (st 100 0 99 [(99, 4399)]).cfg.memSize ∧
      view (step (st 100 0 99 [(99, 4399)])) = some ⟨0, 99, .halted, .none, 0⟩) := by decide

/-- DecodeLatchesThenChecksTheOpcode: a word next to the last valid one. -/
theorem witness_invalid_opcode :
    Fetches (st 100 0 0 [(0, 4600)]) 4600 ∧ uval (4600 : Word) / 100 ∉ opcodes ∧
      view (step (st 100 0 0 [(0, 4600)])) = some ⟨0, 0, .faulted, .invalidOpcode, 0⟩ := by decide

/-- DecodeOfEncodeIsTheInstruction, EncoderWordsDecodeBack, EncoderInvertsDecode, EncoderRejectsByName,
ValidWordsAreTheTablesRanges: the default map and another allowed one, the edge operands, the edge words. -/
theorem witness_encodings :
    OpcodeAssignment.standard.wf = true ∧
    OpcodeAssignment.wf { OpcodeAssignment.standard with memArith := [.mul, .mod, .div, .sub, .add] } = true ∧
    Instr.wf (.add 99) = true ∧ 0 < 100 ∧ 99 < 100 ∧ 100 ≤ 100 ∧
    decodeFields OpcodeAssignment.standard 4599#16 = .ok (.jumpIfGreaterThanZero, 99) ∧
    ValidWord 1000#16 ∧ ¬ ValidWord 999#16 ∧ ¬ ValidWord 1400#16 ∧ ValidWord 2299#16 ∧ ¬ ValidWord 4600#16 :=
  ⟨by decide, by decide, by decide, by decide, by decide, by decide, rfl, by decide⟩

/-- WordReadings: the edges of both readings. -/
theorem witness_words :
    uval (0x7FFF : Word) < 32768 ∧ 32768 ≤ uval (0x8000 : Word) ∧ InData (-32768) ∧ InData 32767 ∧ 65535 < 65536 := by decide

/-- CanonicalMemoryIsUnique: a memory in canonical form. -/
theorem witness_canonical : Memory.wf 100 (fun _ => 0) [(3, 1), (99, 2)] = true ∧
    ∀ a, Memory.read (fun _ => 0) [(3, 1), (99, 2)] a = Memory.read (fun _ => 0) [(3, 1), (99, 2)] a := ⟨by decide, fun _ => rfl⟩

/-- ResetMeetsTheInvariant: parameters at both ends of the range. -/
theorem witness_config : (cfgOf 1).wf = true ∧ (cfgOf 65535).wf = true := by decide

/-- A state of the invariant, from what is decidable of it: registers that fit each other in a status other than WAIT_INPUT
and IDLE. -/
theorem inv_of_running {s : State} (h1 : s.cfg.wf = true) (h2 : Memory.wf s.cfg.memSize s.unlisted s.mem = true)
    (h3 : uval s.pc ≤ max s.cfg.memSize 99) (h4 : s.opc = opcodeField s.ir ∧ s.opd = operandField s.ir)
    (h5 : s.status = .running) (h6 : s.faultKind = .none) (h7 : s.faultAddr = 0) (h8 : s.output = []) : s.Inv where
  config := h1
  memory := h2
  pcBound := h3
  decoded := h4
  faultStatus := by simp [h5, h6]
  faultAddrZero _ := h7
  faultAddrBad := by simp [h6]
  noReserved := by simp [h6]
  waiting := by simp [h5]
  waitingPc := by simp [h5]
  idle := by simp [h5]
  sent := by simp [h8]

/-- StepKeepsTheInvariant, EveryStepAnswersANextState, HostActionsKeepTheInvariant: a running core that stores into its last
cell. -/
theorem witness_inv_running :
    (st 100 5 0 [(0, 2199)]).Inv ∧ cellAfter (step (st 100 5 0 [(0, 2199)])) 99 = some 5 :=
  ⟨inv_of_running (by decide) (by decide) (by decide) (by decide) rfl rfl rfl rfl, by decide⟩

/-- The same in WAIT_INPUT with an answer there: READ 7 waits and takes it. -/
theorem witness_inv_waiting :
    ({ Latched (st 100 5 0 [(0, 1007)] [.value 3]) 1007 with status := .waitInput } : State).Inv ∧
    cellAfter (step { Latched (st 100 5 0 [(0, 1007)] [.value 3]) 1007 with status := .waitInput }) 7 = some 3 := by
  refine ⟨⟨by decide, by decide, by decide, by decide, by decide, by decide, by decide, by decide, fun _ => .inr ⟨7, rfl⟩,
    by decide, by decide, by decide⟩, by decide⟩

/-- EveryReachableStateMeetsTheInvariant: an allowed instance, loaded and started. -/
theorem witness_reachable :
    Config.standard.wf = true ∧ Reachable Config.standard (hostAct .start (hostAct (.load 0 4300) State.reset)) :=
  ⟨by decide, .host .start (.host (.load 0 4300) .reset)⟩

/-- PcAdvancesByOneOrJumps, EveryInstructionKeepsItsFrame: an instruction that completes, one that faults, one that halts, a
conditional jump either way, and a READ that takes its answer out of the wait, each with the state it leaves. -/
theorem witness_all_instructions :
    (Instr.wf (.store 99) = true ∧ (st 100 5 0 []).status = .running ∧
      view (exec (.store 99) (st 100 5 0 [])) = some ⟨5, 1, .running, .none, 0⟩) ∧
    view (exec (.load 50) (st 50 5 0 [])) = some ⟨5, 0, .faulted, .addressOutOfBounds, 50⟩ ∧
    view (exec .halt (st 50 5 7 [])) = some ⟨5, 7, .halted, .none, 0⟩ ∧
    view (exec (.jump 99) (st 50 5 7 [])) = some ⟨5, 99, .running, .none, 0⟩ ∧
    view (exec (.jumpIfNegative 99) (st 50 (-1) 7 [])) = some ⟨-1, 99, .running, .none, 0⟩ ∧
    view (exec (.jumpIfZero 99) (st 50 1 7 [])) = some ⟨1, 8, .running, .none, 0⟩ ∧
    view (exec (.read 7) { st 100 5 7 [] [.value 3] with status := .waitInput }) = some ⟨5, 8, .running, .none, 0⟩ ∧
    view (exec (.read 7) { st 100 5 7 [] [.malformed] with status := .waitInput }) =
      some ⟨5, 7, .faulted, .invalidReadInput, 0⟩ ∧
    (Instr.writesAcc (.store 99) = false ∧ Instr.storesAt (.store 99) 98 = false ∧ Instr.sends (.store 99) = false ∧
      Instr.takesInput (.store 99) = false ∧ Instr.store 99 ≠ .halt ∧ Instr.jumps (.store 99) = false) := by decide

/-- FaultsAreTheOnesTheTableNames: DIV faults with N = 100 on a zero divisor, with N = 8 on its address. -/
theorem witness_faults :
    (Instr.wf (.div 8) = true ∧ (st 100 9 0 []).status ≠ .faulted ∧ 100 ≤ (st 100 9 0 []).cfg.memSize ∧
      view (exec (.div 8) (st 100 9 0 [])) = some ⟨9, 0, .faulted, .divisionByZero, 0⟩) ∧
    ((st 8 9 0 []).status ≠ .faulted ∧
      view (exec (.div 8) (st 8 9 0 [])) = some ⟨9, 0, .faulted, .addressOutOfBounds, 8⟩) := by decide

/-- FaultEntryChangesNothingElse: a step that faults in execute, one in fetch, and one out of the wait. -/
theorem witness_fault_entry :
    ((st 100 5 1 [(1, 3700)]).status ≠ .faulted ∧ (st 100 5 1 [(1, 3700)]).status = .running ∧
      uval (st 100 5 1 [(1, 3700)]).pc < (st 100 5 1 [(1, 3700)]).cfg.memSize ∧
      view (step (st 100 5 1 [(1, 3700)])) = some ⟨5, 1, .faulted, .divisionByZero, 0⟩) ∧
    ((st 3 5 3 []).status = .running ∧ (st 3 5 3 []).cfg.memSize ≤ uval (st 3 5 3 []).pc ∧
      view (step (st 3 5 3 [])) = some ⟨5, 3, .faulted, .addressOutOfBounds, 3⟩) ∧
    view (step { Latched (st 100 5 0 [(0, 1300)] [.malformed]) 1300 with status := .waitInput }) =
      some ⟨5, 0, .faulted, .invalidReadInput, 0⟩ := by decide

/-- OutputOnlyGrows: a step that sends and one that does not. -/
theorem witness_output :
    outputAfter (step (st 100 7 0 [(0, 1200)])) = some [7] ∧ outputAfter (step (st 100 7 0 [(0, 2105)])) = some [] := by
  decide

/-- StoredWordExecutesNext: STORE at 98 puts HALT into the last cell, 99 (95_test_vectors P4's shape). -/
theorem witness_self_modifying :
    (st 100 4300 98 [(98, 2199)]).cfg.memSize ≤ 65535 ∧ Fetches (st 100 4300 98 [(98, 2199)]) 2199 ∧
      decode (st 100 4300 98 [(98, 2199)]).cfg.opcodes 2199 = .ok (.store (uval (st 100 4300 98 [(98, 2199)]).pc + 1)) ∧
      uval (st 100 4300 98 [(98, 2199)]).pc + 1 < (st 100 4300 98 [(98, 2199)]).cfg.memSize ∧
      decode (st 100 4300 98 [(98, 2199)]).cfg.opcodes (st 100 4300 98 [(98, 2199)]).acc = .ok .halt :=
  ⟨by decide, by decide, rfl, by decide, rfl⟩

/-- OnlyHaltAndFaultsEndARun: a core not stopped whose step leaves it HALTED, and one whose step leaves it FAULTED. -/
theorem witness_run_ends :
    (¬ Stopped (st 100 0 0 [(0, 4300)]) ∧ ∃ t, step (st 100 0 0 [(0, 4300)]) = .next t ∧ Stopped t) ∧
    (¬ Stopped (st 100 0 0 []) ∧ ∃ t, step (st 100 0 0 []) = .next t ∧ Stopped t) :=
  ⟨⟨(by rintro (h | h) <;> cases h), _, rfl, .inl rfl⟩, (by rintro (h | h) <;> cases h), _, rfl, .inr rfl⟩

/-- AStoppedCoreStaysStopped: a HALTED and a FAULTED core, and an action of the host that is no reset. -/
theorem witness_stopped :
    Stopped { st 100 0 0 [] with status := .halted } ∧
      Stopped { st 100 0 0 [] with status := .faulted, faultKind := .invalidOpcode } ∧ HostAction.start ≠ .reset :=
  ⟨.inl rfl, .inr rfl, by decide⟩

/-- AnUnansweredWaitNeverEnds: a READ that waits; an answer changes its state. -/
theorem witness_unanswered :
    WaitsUnanswered { st 100 0 0 [(0, 1007)] with status := .waitInput } ∧
      hostAct (.answer .malformed) { st 100 0 0 [(0, 1007)] with status := .waitInput } ≠
        { st 100 0 0 [(0, 1007)] with status := .waitInput } := ⟨⟨rfl, rfl⟩, by decide⟩

/-- AJumpToItselfNeverEnds: word 4005 at address 5 (43_control R206). -/
theorem witness_jump_to_itself :
    Fetches (st 100 0 5 [(5, 4005)]) 4005 ∧
      decode (st 100 0 5 [(5, 4005)]).cfg.opcodes 4005 = .ok (.jump (uval (st 100 0 5 [(5, 4005)]).pc)) :=
  ⟨by decide, rfl⟩

/-- ResetSetsEverything: the clauses about ZERO and ARBITRARY. -/
theorem witness_reset : (st 100 5 5 [(3, 3)]).cfg.memInit = .zero ∧
    (State.resetWith { Config.standard with memInit := .arbitrary }).cfg.memInit = .arbitrary := by decide

/-- StartWorksOnlyInIdle: an IDLE core with HALT loaded at `pc`. -/
theorem witness_start : (loadImage State.reset [4300]).status = .idle ∧
    uval (loadImage State.reset [4300]).pc < (loadImage State.reset [4300]).cfg.memSize ∧
    decode (loadImage State.reset [4300]).cfg.opcodes
      ((loadImage State.reset [4300]).cell (uval (loadImage State.reset [4300]).pc)) = .ok .halt :=
  ⟨by decide, by decide, rfl⟩

/-- LoadPortWritesOnlyInIdle, StartWorksOnlyInIdle, ImageLiesFromAddressZero: IDLE, the last cell, one past it, another status;
an image one word longer than memory. -/
theorem witness_load :
    State.reset.status = .idle ∧ 99 < State.reset.cfg.memSize ∧ State.reset.cfg.memSize ≤ 100 ∧
      (st 100 0 0 []).status ≠ .idle ∧ (State.resetWith (cfgOf 1)).status = .idle ∧
      0 < (State.resetWith (cfgOf 1)).cfg.memSize ∧ 0 < [4300#16, 4300#16].length ∧
      (State.resetWith (cfgOf 1)).cfg.memSize ≤ 1 := by decide

/-- SnapshotPortShowsTheState: a status in which the port is open, one in which it is not, the last cell and one past it. -/
theorem witness_snapshot :
    State.reset.status = .idle ∧ 99 < State.reset.cfg.memSize ∧ State.reset.cfg.memSize ≤ 100 ∧
      (st 100 0 0 []).status = .running := by decide

/-- HostCannotTouchARun: a running core, a waiting one, an action that is no reset. -/
theorem witness_run_untouched :
    HostAction.load 0 4300 ≠ .reset ∧ (st 100 0 0 []).status = .running ∧
      ({ st 100 0 0 [] with status := .waitInput } : State).status = .waitInput := by decide

end Sys2Proof.Tests
end

section
/-! How an instruction moves `pc` (10_state R26), read off the states `Effect` allows and, for the conditional jumps, off the
one operation they share. -/

namespace Sys2Proof.Machine

variable {i : Instr} {s t : State}

/-- An instruction that is no jump and leaves the core RUNNING went through, and every rule that goes through ends in
`advance`. -/
theorem Effect.pc_of_running (he : Effect i s t) (hj : i.jumps = false) (ht : t.status = .running) :
    t.pc = s.pc + 1#16 := by
  cases he with
  | waits | faults | inputFaults | halts => cases ht
  | jumps hi | fallsThrough hi => simp [hi] at hj
  | sends | writesAcc | inputAcc | storesAcc | inputCell => rfl

/-- An instruction that ends the run, by a fault or as HALT, does not move `pc` (60_exceptions R237, 43_control R207). -/
theorem Effect.pc_of_stopped (he : Effect i s t) (hs : ¬ Stopped s) (ht : Stopped t) : t.pc = s.pc := by
  cases he with
  | waits | faults | inputFaults | halts => rfl
  | sends | writesAcc | storesAcc | jumps | fallsThrough => exact absurd ht hs
  | inputAcc | inputCell => rcases ht with ht | ht <;> cases ht

/-- A conditional jump whose predicate decides `p` goes to its target or on to the next address (43_control R200). -/
theorem pc_of_jumpIf {p : Prop} [Decidable p] {a : Nat} (h : jumpIf (decide p) a s = .next t) :
    t.pc = if p then zext16 a else s.pc + 1#16 := by
  cases h
  by_cases hp : p <;> simp [hp]

end Sys2Proof.Machine

open Sys2Proof Sys2Proof.Machine

/-- Settles O44: `exec_effect` gives the state an instruction leaves, and the lemmas above its `pc`. -/
theorem pcAdvancesByOneOrJumps : Obligations.PcAdvancesByOneOrJumps := by
  unfold Obligations.PcAdvancesByOneOrJumps
  intro i s t hwf hs h
  have he : Effect i s t := exec_effect hwf h
  have hns : ¬ Stopped s := by rcases hs with hs | hs <;> simp [Stopped, EndedSuccessfully, Aborted, hs]
  refine ⟨he.pc_of_running, fun ht => he.pc_of_stopped hns (.inr ht), fun ht => he.pc_of_stopped hns (.inl ht),
    ?jump, ?negative, ?zero, ?notZero, ?positive⟩
  case jump => rintro a rfl; cases h; rfl
  case negative | zero | notZero | positive => rintro a rfl; exact pc_of_jumpIf h
end

section
/-! The memory interface (20_memory R52, R53). -/

namespace Sys2Proof.Machine

/-- Setting a cell is a store in the sense of the claims. `u` may differ from `s` in its registers: an instruction that stores
moves `pc` as well. -/
theorem State.setCell_stores {s u : State} (h : ∀ b, u.cell b = s.cell b) (a : Nat) (w : Word) :
    Sys2Proof.Claims.Stores s (u.setCell a w) u a w :=
  ⟨u.setCell_cell_same a w, fun b hb => (u.setCell_cell_other w hb).trans (h b), rfl⟩

/-- A cell that was set reads back through the interface as the word it was set to (20_memory R52, R53). -/
theorem memRead_setCell_same {s : State} {a : Nat} {w : Word} (h : a < s.cfg.memSize) :
    memRead (s.setCell a w) a = .ok w := by
  rw [memRead_below (by simpa using h), State.setCell_cell_same]

end Sys2Proof.Machine

open Sys2Proof Sys2Proof.Machine

/-- Settles O37: the interface's two answers on either side of N; below N the state written is `setCell`'s. -/
theorem memoryInterfaceReadsAndWrites : Obligations.MemoryInterfaceReadsAndWrites := by
  unfold Obligations.MemoryInterfaceReadsAndWrites
  intro s a w
  constructor
  · intro below
    exact ⟨memRead_below below, s.setCell a w, memWrite_below below, State.setCell_stores (fun _ => rfl) a w,
      memRead_setCell_same below⟩
  · intro beyond
    exact ⟨memRead_beyond beyond, memWrite_beyond beyond⟩
end

section
/-! Fetch, decode and the encoder's refusals (30_encoding R91, R92, R103, R104). -/

namespace Sys2Proof.Machine

open Sys2Proof.Claims (Faulted Fetches opcodes)

variable {i : Instr} {s t : State} {w : Word}

/-- A number outside the 23 of 30_encoding R84 lies in none of the ranges of R85, so no opcode map, well-formed or not, has a
mnemonic for it. -/
theorem mnemonicOf_of_not_mem_opcodes (a : OpcodeAssignment) {opc : Nat} (h : opc ∉ opcodes) :
    a.mnemonicOf opc = none := by
  have outside : ¬ (10 ≤ opc ∧ opc < 14) ∧ ¬ (20 ≤ opc ∧ opc < 23) ∧ ¬ (30 ≤ opc ∧ opc < 35) ∧
      ¬ (35 ≤ opc ∧ opc < 40) ∧ opc ≠ 40 ∧ opc ≠ 41 ∧ opc ≠ 42 ∧ opc ≠ 43 ∧ opc ≠ 44 ∧ opc ≠ 45 := by
    simp only [opcodes, List.mem_cons, List.not_mem_nil, or_false] at h
    omega
  simp [OpcodeAssignment.mnemonicOf, outside]

/-- Only decode writes the decoded-instruction registers; no instruction changes them (10_state R32). -/
theorem Effect.decoded_registers (he : Effect i s t) : t.ir = s.ir ∧ t.opc = s.opc ∧ t.opd = s.opd := by
  cases he <;> exact ⟨rfl, rfl, rfl⟩

/-- After a step that fetched `w` the three registers show `w`, whether it executed or was refused (30_encoding R92). -/
theorem step_decoded_registers (hf : Fetches s w) (h : step s = .next t) :
    t.ir = w ∧ t.opc = opcodeField w ∧ t.opd = operandField w := by
  obtain ⟨hs, hp, rfl⟩ := hf
  rw [step_running hs hp] at h
  cases hd : decode s.cfg.opcodes (s.cell (uval s.pc)) with
  | ok i =>
    rw [decodeExecute_ok hd] at h
    exact (exec_effect (decode_wf hd) h).decoded_registers
  | error e =>
    rw [decodeExecute_error hd] at h
    cases h
    exact ⟨rfl, rfl, rfl⟩

/-- A fetched word whose opcode no map has is refused on the state decode has written (30_encoding R92). -/
theorem step_invalid_opcode (hf : Fetches s w) (hw : opcodeField w ∉ opcodes) :
    step s = .next ((s.latch w).raise .invalidOpcode) := by
  obtain ⟨hs, hp, rfl⟩ := hf
  have refused := decode_error.2 ⟨mnemonicOf_of_not_mem_opcodes s.cfg.opcodes hw, rfl⟩
  rw [step_running hs hp, decodeExecute_error refused]

/-- Fault entry as the claims write it, where the failing address is a 16-bit pattern (60_exceptions R237). -/
theorem State.raise_addressOutOfBounds_uval (s : State) (p : Word) :
    s.raise (.addressOutOfBounds (uval p)) = Faulted s .addressOutOfBounds p := by
  simp [State.raise, Trap.kind, Trap.addr, Faulted]

end Sys2Proof.Machine

open Sys2Proof Sys2Proof.Machine

/-- Settles O28: the fetch fault is fault entry at `pc`; a fetch that goes through leaves its word in `ir`. -/
theorem fetchChecksThePc : Obligations.FetchChecksThePc := by
  unfold Obligations.FetchChecksThePc
  intro s hs
  constructor
  · intro beyond
    rw [step_fetch_fault hs beyond, State.raise_addressOutOfBounds_uval]
  · intro below t h
    exact (step_decoded_registers ⟨hs, below, rfl⟩ h).1

/-- Settles O29: the registers on every next state, then the refusal under any opcode map. -/
theorem decodeLatchesThenChecksTheOpcode : Obligations.DecodeLatchesThenChecksTheOpcode := by
  unfold Obligations.DecodeLatchesThenChecksTheOpcode
  intro s w hf
  exact ⟨fun _ h => step_decoded_registers hf h, fun hw => step_invalid_opcode hf hw⟩

/-- Settles O34: the encoder looks at the form of the operand, then at the size of an immediate. -/
theorem encoderRejectsByName : Obligations.EncoderRejectsByName := by
  unfold Obligations.EncoderRejectsByName
  intro a m
  refine ⟨?immediate, ?labelName, ?variableName⟩
  case immediate => intro n hn; exact if_pos hn
  case labelName | variableName => intro x; rfl
end

section
/-! The I/O instructions and the exchange with the console (40_io R122 to R126). -/

namespace Sys2Proof

/-- READ and READ-IMMEDIATE are the two instructions that ask the host (40_io R126). -/
theorem Instr.takesInput_iff {i : Instr} : i.takesInput = true ↔ (∃ a, i = .read a) ∨ i = .readImmediate := by
  cases i <;> simp [Instr.takesInput, Instr.mnemonic]

end Sys2Proof

namespace Sys2Proof.Machine

open Sys2Proof.Claims (Fetches InData Words)

variable {i : Instr} {s : State} {w : Word} {r : Answer} {rest : List Answer} {v : Int} {a : Nat}

/-- The words of one opcode of the default map are the instructions of its mnemonic (30_encoding R81, R84). -/
theorem words_of_mnemonicOf (opc : Nat) (m : Mnemonic) (hopc : opc ≤ 45)
    (h : OpcodeAssignment.standard.mnemonicOf opc = some m) : Words opc m.instr := by
  intro n hn
  obtain ⟨_, hopcode, hoperand⟩ := fields_of_compose hopc hn
  exact decode_ok.2 ⟨m, by rw [hopcode, h], by rw [hoperand]⟩

/-! ### Raising the request and waiting -/

theorem exec_unanswered (hi : i.takesInput = true) (hc : s.console = []) :
    exec i s = .next (s.setStatus .waitInput) := by
  obtain ⟨a, rfl⟩ | rfl := Instr.takesInput_iff.1 hi
  · simp [exec, execRead, inRead_unanswered hc]
  · simp [exec, execReadImmediate, inRead_unanswered hc]

/-- A fetched READ or READ-IMMEDIATE that finds no answer raises its request on the state decode has written. -/
theorem step_raises_request (hf : Fetches s w) (hd : decode s.cfg.opcodes w = .ok i) (hi : i.takesInput = true)
    (hc : s.console = []) : step s = .next ((s.latch w).setStatus .waitInput) := by
  obtain ⟨hs, hp, rfl⟩ := hf
  rw [step_running hs hp, decodeExecute_ok hd]
  exact exec_unanswered hi hc

theorem step_of_waitsUnanswered (h : WaitsUnanswered s) : step s = .next s := by
  obtain ⟨hs, hc⟩ := h
  simp [step, coreStep, hs, resume, hc]

/-! ### Taking the answer -/

theorem hostAnswer_of_waitsUnanswered (h : WaitsUnanswered s) (r : Answer) :
    hostAnswer s r = { s with console := [r] } := if_pos h

theorem hostAnswer_console (h : WaitsUnanswered s) (r : Answer) : (hostAnswer s r).console = [r] := by
  rw [hostAnswer_of_waitsUnanswered h]

/-- The step after the host's answer is the waiting instruction on the state with that answer. -/
theorem step_hostAnswer (h : WaitsUnanswered s) (hd : decode s.cfg.opcodes s.ir = .ok i) (hi : i.takesInput = true)
    (r : Answer) : step (hostAnswer s r) = exec i (hostAnswer s r) := by
  have waiting : ({ s with console := [r] } : State).status = .waitInput := h.1
  rw [hostAnswer_of_waitsUnanswered h, step, coreStep, waiting]
  exact resume_answered (List.cons_ne_nil r []) hi hd

theorem waitsUnanswered_of_request (hc : s.console = []) : WaitsUnanswered (s.setStatus .waitInput) := ⟨rfl, hc⟩

/-- The exchange cancels out: request raised, answered and taken, a running core is in the state it asked from. -/
theorem takeAnswer_hostAnswer_of_request (hs : s.status = .running) (hc : s.console = []) (r : Answer) :
    (hostAnswer (s.setStatus .waitInput) r).takeAnswer [] = s := by
  rw [hostAnswer_of_waitsUnanswered (waitsUnanswered_of_request hc)]
  simp [State.takeAnswer, State.setStatus, ← hs, ← hc]

theorem exec_read_answered (h : s.console = r :: rest) (a : Nat) :
    exec (.read a) s =
      complete (s.takeAnswer rest) (r.check.bind fun v => memWrite (s.takeAnswer rest) a (bits16 v)) := by
  simp only [exec, execRead, inRead_answered h]

theorem exec_readImmediate_answered (h : s.console = r :: rest) :
    exec .readImmediate s =
      complete (s.takeAnswer rest) (r.check.map fun v => (s.takeAnswer rest).setAcc v) := by
  simp only [exec, execReadImmediate, inRead_answered h]

theorem Answer.check_not_inData (h : ¬ InData v) : (Answer.value v).check = .error .invalidReadInput :=
  Answer.check_out_of_range (Bool.eq_false_iff.2 (mt inRange_iff.1 h))

/-- The wait of READ ends as its rule on the state decode has written, with the host's answer for `r` (40_io R122). -/
theorem step_read_answered (hf : Fetches s w) (hd : decode s.cfg.opcodes w = .ok (.read a)) (hc : s.console = [])
    (r : Answer) : step (hostAnswer ((s.latch w).setStatus .waitInput) r) =
      complete (s.latch w) (r.check.bind fun v => memWrite (s.latch w) a (bits16 v)) := by
  have waits : WaitsUnanswered ((s.latch w).setStatus .waitInput) := waitsUnanswered_of_request hc
  have back := takeAnswer_hostAnswer_of_request (s := s.latch w) hf.1 hc r
  rw [step_hostAnswer waits hd rfl, exec_read_answered (hostAnswer_console waits r), back]

/-- The wait of READ-IMMEDIATE ends as its rule on the state decode has written (40_io R125). -/
theorem step_readImmediate_answered (hf : Fetches s w) (hd : decode s.cfg.opcodes w = .ok .readImmediate)
    (hc : s.console = []) (r : Answer) : step (hostAnswer ((s.latch w).setStatus .waitInput) r) =
      complete (s.latch w) (r.check.map fun v => (s.latch w).setAcc v) := by
  have waits : WaitsUnanswered ((s.latch w).setStatus .waitInput) := waitsUnanswered_of_request hc
  have back := takeAnswer_hostAnswer_of_request (s := s.latch w) hf.1 hc r
  rw [step_hostAnswer waits hd rfl, exec_readImmediate_answered (hostAnswer_console waits r), back]

end Sys2Proof.Machine

open Sys2Proof Sys2Proof.Machine

/-- Settles O5: the request, the wait, and the cases of the answer, each on the state decode has written. -/
theorem readWaitsThenTakesTheAnswer : Obligations.ReadWaitsThenTakesTheAnswer := by
  unfold Obligations.ReadWaitsThenTakesTheAnswer
  refine ⟨words_of_mnemonicOf 10 .read (by decide) (by decide), fun s w a hf hd hc => ?_⟩
  refine ⟨(s.latch w).setStatus .waitInput, step_raises_request hf hd rfl hc, rfl,
    step_of_waitsUnanswered (waitsUnanswered_of_request hc), ?stores, ?outOfBounds, ?outOfRange, ?malformed⟩
  case stores =>
    intro v hv below
    refine ⟨(s.latch w).advance.setCell a (bits16 v), ?_, State.setCell_stores (fun _ => rfl) a (bits16 v)⟩
    rw [step_read_answered hf hd hc, Answer.check_value (inRange_iff.2 hv)]
    exact congrArg (complete (s.latch w)) (memWrite_below (s := s.latch w) below)
  case outOfBounds =>
    intro v hv beyond
    rw [step_read_answered hf hd hc, Answer.check_value (inRange_iff.2 hv)]
    exact congrArg (complete (s.latch w)) (memWrite_beyond (s := s.latch w) beyond)
  case outOfRange =>
    intro v hv
    rw [step_read_answered hf hd hc, Answer.check_not_inData hv]
    rfl
  case malformed => exact step_read_answered hf hd hc .malformed

/-- Settles O6: as O5, with `acc` for the cell, so that no bounds check follows the check of the answer. -/
theorem readImmediateWaitsThenTakesTheAnswer : Obligations.ReadImmediateWaitsThenTakesTheAnswer := by
  unfold Obligations.ReadImmediateWaitsThenTakesTheAnswer
  refine ⟨words_of_mnemonicOf 13 .readImmediate (by decide) (by decide), fun s w hf hd hc => ?_⟩
  refine ⟨(s.latch w).setStatus .waitInput, step_raises_request hf hd rfl hc, rfl,
    step_of_waitsUnanswered (waitsUnanswered_of_request hc), ?takes, ?outOfRange, ?malformed⟩
  case takes =>
    intro v hv
    rw [step_readImmediate_answered hf hd hc, Answer.check_value (inRange_iff.2 hv)]
    rfl
  case outOfRange =>
    intro v hv
    rw [step_readImmediate_answered hf hd hc, Answer.check_not_inData hv]
    rfl
  case malformed => exact step_readImmediate_answered hf hd hc .malformed

/-- Settles O2: the memory operand is checked before anything is sent. -/
theorem writeSendsTheCell : Obligations.WriteSendsTheCell := by
  unfold Obligations.WriteSendsTheCell
  refine ⟨words_of_mnemonicOf 11 .write (by decide) (by decide), fun s a => ⟨fun below => ?_, fun beyond => ?_⟩⟩
  · rw [exec, execWrite, memoryOperand_below below]
    rfl
  · rw [exec, execWrite, memoryOperand_beyond beyond]
    rfl

/-- Settles O3: no check stands before the output, so every state has the one answer. -/
theorem writeAccumulatorSendsAcc : Obligations.WriteAccumulatorSendsAcc := by
  unfold Obligations.WriteAccumulatorSendsAcc
  exact ⟨words_of_mnemonicOf 12 .writeAccumulator (by decide) (by decide), rfl, fun _ => rfl⟩
end

section
/-! Load and store (41_load_store R140 to R142). -/

namespace Sys2Proof.Machine

/-- On a non-negative integer the two conversions of 00_scope R9 give the same pattern. -/
theorem bits16_natCast (n : Nat) : bits16 n = zext16 n := BitVec.ofInt_natCast 16 n

end Sys2Proof.Machine

open Sys2Proof Sys2Proof.Machine

/-- Settles O7: LOAD takes the cell's value, and the pattern of that value is the cell itself. -/
theorem loadCopiesTheCell : Obligations.LoadCopiesTheCell := by
  unfold Obligations.LoadCopiesTheCell
  refine ⟨words_of_mnemonicOf 20 .load (by decide) (by decide), fun s a => ⟨fun below => ?_, fun beyond => ?_⟩⟩
  · have loads : exec (.load a) s = .next (s.setAcc (sval (s.cell a))).advance := by
      rw [exec, execLoad, memoryOperand_below below]
      rfl
    rw [loads, State.setAcc, bits16_sval]
    rfl
  · rw [exec, execLoad, memoryOperand_beyond beyond]
    rfl

/-- Settles O8: STORE writes the pattern of `acc`'s value, which is `acc`; the bounds check comes before the write. -/
theorem storeCopiesAcc : Obligations.StoreCopiesAcc := by
  unfold Obligations.StoreCopiesAcc
  refine ⟨words_of_mnemonicOf 21 .store (by decide) (by decide), fun s a => ⟨fun below => ?_, fun beyond => ?_⟩⟩
  · refine ⟨s.advance.setCell a s.acc, ?_, State.setCell_stores (fun _ => rfl) a s.acc⟩
    rw [exec, execStore, bits16_sval, memWrite_below below]
    rfl
  · rw [exec, execStore, memWrite_beyond beyond]
    rfl

/-- Settles O9: no check stands before the write; an operand of two digits lies in the data range, so that `acc` reads back
as the operand. -/
theorem loadImmediateSetsAcc : Obligations.LoadImmediateSetsAcc := by
  unfold Obligations.LoadImmediateSetsAcc
  refine ⟨words_of_mnemonicOf 22 .loadImmediate (by decide) (by decide), fun s n => ⟨?sets, fun hn => ?reads⟩⟩
  case sets =>
    have sets : exec (.loadImmediate n) s = .next (s.setAcc n).advance := rfl
    rw [sets, State.setAcc, bits16_natCast]
    rfl
  case reads =>
    have inData : inRange n = true := inRange_iff.2 (by omega)
    calc sval (zext16 n) = sval (bits16 n) := by rw [bits16_natCast]
      _ = n := sval_bits16 inData
end

section
/-! The ten arithmetic instructions (42_arithmetic R160 to R179): what the ALU answers on either side of each of its checks, and
the two operand forms of an operation whose only check is the range of its result. -/

namespace Sys2Proof.Machine

open Sys2Proof.Claims (ExactImmediateForm ExactMemoryForm InData)

variable {a b v : Int}

/-! ### The ALU's checks -/

theorem chk_of_inData (h : InData v) : chk v = .ok v := chk_of_inRange (inRange_iff.2 h)

theorem chk_of_not_inData (h : ¬ InData v) : chk v = .error .arithmeticOverflow :=
  chk_of_not_inRange (Bool.eq_false_iff.2 (mt inRange_iff.1 h))

/-- The one quotient of two values of the data range that leaves it is that of −32768 by −1 (42_arithmetic R163): a positive
divisor keeps it in, −1 negates, and a divisor of −2 or below at least halves the magnitude. -/
theorem tdiv_inRange (hb : b ≠ 0) (hab : ¬ (a = -32768 ∧ b = -1)) (ha : inRange a = true) :
    inRange (tdiv a b) = true := by
  have bounds := inRange_iff.1 ha
  obtain positive | rfl | below : 0 < b ∨ b = -1 ∨ b ≤ -2 := by omega
  · exact tdiv_inRange_of_pos positive ha
  · have negates : tdiv a (-1) = -a := by rw [tdiv, Int.tdiv_neg, Int.tdiv_one]
    rw [negates, inRange_iff]
    omega
  · have halves : (tdiv a b).natAbs ≤ a.natAbs / 2 := by
      rw [tdiv, Int.natAbs_tdiv]
      exact Nat.div_le_div_left (by omega) (by decide)
    rw [inRange_iff]
    omega

theorem aluDiv_of_inRange (hb : b ≠ 0) (h : inRange (tdiv a b) = true) : aluDiv a b = .ok (tdiv a b) := by
  rw [aluDiv, if_neg hb, chk_of_inRange h]

theorem aluDiv_of_zero (hb : b = 0) : aluDiv a b = .error .divisionByZero := if_pos hb

theorem aluDiv_overflow : aluDiv (-32768) (-1) = .error .arithmeticOverflow := by decide

theorem aluMod_of_ne_zero (hb : b ≠ 0) : aluMod a b = .ok (Int.tmod a b) := by
  rw [aluMod, if_neg hb, trem_eq_tmod]

theorem aluMod_of_zero (hb : b = 0) : aluMod a b = .error .divisionByZero := if_pos hb

theorem tmod_inData (w : Word) (b : Int) : InData (Int.tmod (sval w) b) :=
  inRange_iff.1 (trem_eq_tmod (sval w) b ▸ trem_inRange b (sval_inRange w))

/-! ### The operand forms -/

theorem immediateOperand_ok (n : Nat) : immediateOperand n = .ok (n : Int) := rfl

/-- Memory form: the bounds of the operand are checked before the range of the result (42_arithmetic R166). -/
theorem exactMemoryForm_of_chk {mk : Nat → Instr} {op : Int → Int → Int}
    (h : ∀ s n, exec (mk n) s = arith (fun x y => chk (op x y)) (memoryOperand s n) s) : ExactMemoryForm mk op := by
  intro s n
  rw [h]
  refine ⟨?exact, ?overflow, ?outOfBounds⟩
  case exact => exact fun below hv => arith_through (memoryOperand_below below) (chk_of_inData hv)
  case overflow =>
    intro below hv
    exact arith_alu_fault (k := .arithmeticOverflow) (memoryOperand_below below) (chk_of_not_inData hv)
  case outOfBounds => exact fun beyond => arith_operand_fault (memoryOperand_beyond beyond)

/-- Immediate form: the operand is a number, so that the range of the result is the only check. -/
theorem exactImmediateForm_of_chk {mk : Nat → Instr} {op : Int → Int → Int}
    (h : ∀ s n, exec (mk n) s = arith (fun x y => chk (op x y)) (immediateOperand n) s) :
    ExactImmediateForm mk op := by
  intro s n
  rw [h]
  exact ⟨fun hv => arith_through (immediateOperand_ok n) (chk_of_inData hv),
    fun hv => arith_alu_fault (k := .arithmeticOverflow) (immediateOperand_ok n) (chk_of_not_inData hv)⟩

end Sys2Proof.Machine

open Sys2Proof Sys2Proof.Machine

/-- Settles O12: bounds, then the divisor, then the quotient, which only −32768 by −1 takes out of the range. -/
theorem divTruncatesOrFaults : Obligations.DivTruncatesOrFaults := by
  unfold Obligations.DivTruncatesOrFaults
  refine ⟨words_of_mnemonicOf 32 .div (by decide) (by decide), fun s a => ?_⟩
  have runs : exec (.div a) s = arith aluDiv (memoryOperand s a) s := rfl
  rw [runs]
  refine ⟨?quotient, ?zeroDivisor, ?overflow, ?outOfBounds⟩
  case quotient =>
    intro below hb hab
    have quotient := aluDiv_of_inRange hb (tdiv_inRange hb hab (sval_inRange s.acc))
    exact arith_through (memoryOperand_below below) quotient
  case zeroDivisor =>
    intro below hb
    exact arith_alu_fault (memoryOperand_below below) (aluDiv_of_zero hb)
  case overflow =>
    intro below hacc hb
    have overflow : aluDiv (sval s.acc) (sval (s.cell a)) = .error .arithmeticOverflow := by
      rw [hacc, hb, aluDiv_overflow]
    exact arith_alu_fault (memoryOperand_below below) overflow
  case outOfBounds => exact fun beyond => arith_operand_fault (memoryOperand_beyond beyond)

/-- Settles O13: bounds, then the divisor; the remainder itself is not checked, and is in range. -/
theorem modKeepsTheSignOrFaults : Obligations.ModKeepsTheSignOrFaults := by
  unfold Obligations.ModKeepsTheSignOrFaults
  refine ⟨words_of_mnemonicOf 33 .mod (by decide) (by decide), fun s a => ?_⟩
  have runs : exec (.mod a) s = arith aluMod (memoryOperand s a) s := rfl
  rw [runs]
  refine ⟨?remainder, ?zeroDivisor, ?outOfBounds⟩
  case remainder =>
    intro below hb
    exact ⟨arith_through (memoryOperand_below below) (aluMod_of_ne_zero hb), tmod_inData s.acc _⟩
  case zeroDivisor =>
    intro below hb
    exact arith_alu_fault (memoryOperand_below below) (aluMod_of_zero hb)
  case outOfBounds => exact fun beyond => arith_operand_fault (memoryOperand_beyond beyond)

/-- Settles O10: ADD is the memory form of a range-checked sum. -/
theorem addIsExactOrFaults : Obligations.AddIsExactOrFaults := by
  unfold Obligations.AddIsExactOrFaults
  exact ⟨words_of_mnemonicOf 30 .add (by decide) (by decide), exactMemoryForm_of_chk fun _ _ => rfl⟩

/-- Settles O11: SUB is the memory form of a range-checked difference. -/
theorem subIsExactOrFaults : Obligations.SubIsExactOrFaults := by
  unfold Obligations.SubIsExactOrFaults
  exact ⟨words_of_mnemonicOf 31 .sub (by decide) (by decide), exactMemoryForm_of_chk fun _ _ => rfl⟩

/-- Settles O14: MUL is the memory form of a range-checked product. -/
theorem mulIsExactOrFaults : Obligations.MulIsExactOrFaults := by
  unfold Obligations.MulIsExactOrFaults
  exact ⟨words_of_mnemonicOf 34 .mul (by decide) (by decide), exactMemoryForm_of_chk fun _ _ => rfl⟩

/-- Settles O15: ADD-IMMEDIATE is the immediate form of a range-checked sum. -/
theorem addImmediateIsExactOrFaults : Obligations.AddImmediateIsExactOrFaults := by
  unfold Obligations.AddImmediateIsExactOrFaults
  exact ⟨words_of_mnemonicOf 35 .addImmediate (by decide) (by decide), exactImmediateForm_of_chk fun _ _ => rfl⟩

/-- Settles O16: SUB-IMMEDIATE is the immediate form of a range-checked difference. -/
theorem subImmediateIsExactOrFaults : Obligations.SubImmediateIsExactOrFaults := by
  unfold Obligations.SubImmediateIsExactOrFaults
  exact ⟨words_of_mnemonicOf 36 .subImmediate (by decide) (by decide), exactImmediateForm_of_chk fun _ _ => rfl⟩

/-- Settles O17: a divisor that is not 0 is positive, and a positive divisor keeps the quotient in range. -/
theorem divImmediateTruncatesOrFaults : Obligations.DivImmediateTruncatesOrFaults := by
  unfold Obligations.DivImmediateTruncatesOrFaults
  refine ⟨words_of_mnemonicOf 37 .divImmediate (by decide) (by decide), fun s n => ?_⟩
  have runs : exec (.divImmediate n) s = arith aluDiv (immediateOperand n) s := rfl
  rw [runs]
  refine ⟨fun hn => ?quotient, fun hn => ?zeroDivisor⟩
  case quotient =>
    have positive : 0 < (n : Int) := by omega
    have inData := inRange_iff.1 (tdiv_inRange_of_pos positive (sval_inRange s.acc))
    exact ⟨arith_through (immediateOperand_ok n) (aluDiv_of_pos positive (sval_inRange s.acc)), inData⟩
  case zeroDivisor => exact arith_alu_fault (immediateOperand_ok n) (aluDiv_of_zero (by omega))

/-- Settles O18: as O13, with a number for the cell, so that no bounds check comes first. -/
theorem modImmediateKeepsTheSignOrFaults : Obligations.ModImmediateKeepsTheSignOrFaults := by
  unfold Obligations.ModImmediateKeepsTheSignOrFaults
  refine ⟨words_of_mnemonicOf 38 .modImmediate (by decide) (by decide), fun s n => ?_⟩
  have runs : exec (.modImmediate n) s = arith aluMod (immediateOperand n) s := rfl
  rw [runs]
  refine ⟨fun hn => ?remainder, fun hn => ?zeroDivisor⟩
  case remainder =>
    exact ⟨arith_through (immediateOperand_ok n) (aluMod_of_ne_zero (by omega)), tmod_inData s.acc n⟩
  case zeroDivisor => exact arith_alu_fault (immediateOperand_ok n) (aluMod_of_zero (by omega))

/-- Settles O19: MUL-IMMEDIATE is the immediate form of a range-checked product. -/
theorem mulImmediateIsExactOrFaults : Obligations.MulImmediateIsExactOrFaults := by
  unfold Obligations.MulImmediateIsExactOrFaults
  exact ⟨words_of_mnemonicOf 39 .mulImmediate (by decide) (by decide), exactImmediateForm_of_chk fun _ _ => rfl⟩
end

section
/-! Control (43_control R200 to R207): a jump that is taken, one that is not, the fetch at a target of N or above, and
what HALT leaves on the snapshot port. -/

namespace Sys2Proof.Machine

open Sys2Proof.Claims (FaultsAtNextFetch JumpedTo JumpsWhen)

variable {s : State} {a : Nat}

theorem jumpIf_taken {c : Bool} (hc : c = true) : jumpIf c a s = .next (s.jumpTo a) := by
  simp [jumpIf, hc]

theorem jumpIf_not_taken {c : Bool} (hc : c = false) : jumpIf c a s = .next s.advance := by
  simp [jumpIf, hc]

/-- A target has two digits, so that `pc` holds it whole and the fetch checks the target itself (43_control R206). -/
theorem faultsAtNextFetch (s : State) (a : Nat) : FaultsAtNextFetch s a := by
  intro hs ha beyond
  have running : (JumpedTo s a).status = .running := hs
  have target : uval (JumpedTo s a).pc = a := uval_zext16 (by omega)
  have outside : (JumpedTo s a).cfg.memSize ≤ uval (JumpedTo s a).pc := by rwa [target]
  rw [step_fetch_fault running outside, State.raise_addressOutOfBounds_uval]
  rfl

/-- An instruction that is `jumpIf` on a test of `acc` is a conditional jump in the sense of the claims. -/
theorem jumpsWhen_of_jumpIf {mk : Nat → Instr} {p : Int → Prop} [DecidablePred p]
    (h : ∀ s n, exec (mk n) s = jumpIf (decide (p (sval s.acc))) n s) : JumpsWhen mk p := by
  intro s a
  rw [h]
  exact ⟨fun hp => ⟨jumpIf_taken (decide_eq_true hp), faultsAtNextFetch s a⟩,
    fun hp => jumpIf_not_taken (decide_eq_false hp)⟩

/-- After the end of a run the snapshot port shows the registers (70_reset R267). -/
theorem readSnapshot_of_halted (h : s.status = .halted) : readSnapshot s = some (snapshotOf s) := by
  simp [readSnapshot, snapshotOpen, h]

end Sys2Proof.Machine

open Sys2Proof Sys2Proof.Machine

/-- Settles O21: JUMP answers the state with the new `pc`; the target is looked at by the next fetch. -/
theorem jumpSetsPc : Obligations.JumpSetsPc := by
  unfold Obligations.JumpSetsPc
  exact ⟨words_of_mnemonicOf 40 .jump (by decide) (by decide), fun s a => ⟨rfl, faultsAtNextFetch s a⟩⟩

/-- Settles O22: JUMP-IF-NEGATIVE is `jumpIf` on `acc < 0`. -/
theorem jumpIfNegativeTestsAcc : Obligations.JumpIfNegativeTestsAcc := by
  unfold Obligations.JumpIfNegativeTestsAcc
  exact ⟨words_of_mnemonicOf 41 .jumpIfNegative (by decide) (by decide), jumpsWhen_of_jumpIf fun _ _ => rfl⟩

/-- Settles O23: JUMP-IF-ZERO is `jumpIf` on `acc = 0`. -/
theorem jumpIfZeroTestsAcc : Obligations.JumpIfZeroTestsAcc := by
  unfold Obligations.JumpIfZeroTestsAcc
  exact ⟨words_of_mnemonicOf 42 .jumpIfZero (by decide) (by decide), jumpsWhen_of_jumpIf fun _ _ => rfl⟩

/-- Settles O24: JUMP-IF-NOT-ZERO is `jumpIf` on `acc ≠ 0`. -/
theorem jumpIfNotZeroTestsAcc : Obligations.JumpIfNotZeroTestsAcc := by
  unfold Obligations.JumpIfNotZeroTestsAcc
  exact ⟨words_of_mnemonicOf 44 .jumpIfNotZero (by decide) (by decide), jumpsWhen_of_jumpIf fun _ _ => rfl⟩

/-- Settles O25: JUMP-IF-GREATER-THAN-ZERO is `jumpIf` on `0 < acc`. -/
theorem jumpIfGreaterThanZeroTestsAcc : Obligations.JumpIfGreaterThanZeroTestsAcc := by
  unfold Obligations.JumpIfGreaterThanZeroTestsAcc
  exact ⟨words_of_mnemonicOf 45 .jumpIfGreaterThanZero (by decide) (by decide),
    jumpsWhen_of_jumpIf fun _ _ => rfl⟩

/-- Settles O26: HALT writes `status` alone, and in HALTED the snapshot port is open. -/
theorem haltChangesOnlyStatus : Obligations.HaltChangesOnlyStatus := by
  unfold Obligations.HaltChangesOnlyStatus
  refine ⟨?words, ?encoding, fun s => ⟨?halts, ?snapshot⟩⟩
  case words => exact words_of_mnemonicOf 43 .halt (by decide) (by decide)
  case encoding => rfl
  case halts => rfl
  case snapshot =>
    rw [readSnapshot_of_halted rfl]
    rfl
end

section
/-! Fault entry (60_exceptions R237): how a step comes to fault, and what the fault registers then hold. -/

namespace Sys2Proof.Machine

variable {i : Instr} {s t : State} {k : Trap} {w : Word}

/-! ### What a trap records -/

theorem Trap.kind_ne_none (k : Trap) : k.kind ≠ .none := by cases k <;> simp [Trap.kind]

theorem Trap.kind_addressOutOfBounds (h : k.kind = .addressOutOfBounds) : ∃ a, k = .addressOutOfBounds a := by
  cases k with
  | addressOutOfBounds a => exact ⟨a, rfl⟩
  | invalidOpcode | divisionByZero | invalidReadInput | arithmeticOverflow => cases h

theorem Trap.addr_eq_zero (h : k.kind ≠ .addressOutOfBounds) : k.addr = 0 := by
  cases k with
  | addressOutOfBounds a => exact absurd rfl h
  | invalidOpcode | divisionByZero | invalidReadInput | arithmeticOverflow => rfl

/-! ### The ways a step faults -/

/-- Where `k` is a failed bounds check, the address that failed it is the operand of the word `w` (60_exceptions R231). -/
def FailsAtOperand (s : State) (w : Word) (k : Trap) : Prop :=
  ∀ a, k = .addressOutOfBounds a → a = operandField w ∧ s.cfg.memSize ≤ a

/-- What a step that faults leaves: always fault entry, from the state before the step, or from that state with what decode
wrote and without the console line taken. -/
inductive FaultEffect (s : State) : State → Prop where
  /-- the fetch failed its bounds check -/
  | fetch : s.status = .running → s.cfg.memSize ≤ uval s.pc →
      FaultEffect s (s.raise (.addressOutOfBounds (uval s.pc)))
  /-- the fetched word was refused, or its instruction faulted -/
  | fetched (k : Trap) (c : List Answer) : s.status = .running → uval s.pc < s.cfg.memSize →
      FailsAtOperand s (s.cell (uval s.pc)) k →
      FaultEffect s ({ s.latch (s.cell (uval s.pc)) with console := c }.raise k)
  /-- the instruction that waited faulted on its answer -/
  | waiting (k : Trap) (c : List Answer) : s.status = .waitInput → FailsAtOperand s s.ir k →
      FaultEffect s ({ s with console := c }.raise k)

/-- An instruction that faults has done nothing but take a console line. -/
theorem Effect.faulted (he : Effect i s t) (hs : s.status ≠ .faulted) (ht : t.status = .faulted) :
    ∃ k c, MayRaise i s k ∧ t = { s with console := c }.raise k := by
  cases he with
  | faults k _ hk => exact ⟨k, s.console, hk, rfl⟩
  | inputFaults k r rest _ _ hk => exact ⟨k, rest, hk, rfl⟩
  | waits | halts | inputAcc | inputCell => cases ht
  | sends | writesAcc | storesAcc | jumps | fallsThrough => exact absurd ht hs

/-- Only an instruction that uses memory fails a bounds check, and its number is then the operand of its word. -/
theorem MayRaise.failsAtOperand (hd : decode s.cfg.opcodes w = .ok i) (hk : MayRaise i s k) : FailsAtOperand s w k := by
  rintro a rfl
  obtain ⟨usesMemory, hbad⟩ := hk
  obtain ⟨ha, beyond⟩ := hbad a rfl
  exact ⟨ha.trans (decode_number hd usesMemory), beyond⟩

/-- Inversion of a step that faults. -/
theorem step_faultEffect (hs : s.status ≠ .faulted) (h : step s = .next t) (ht : t.status = .faulted) :
    FaultEffect s t := by
  cases step_effect h with
  | rests => exact absurd ht hs
  | fetchFaults running beyond => exact .fetch running beyond
  | opcodeFaults e running below => exact .fetched .invalidOpcode s.console running below (by rintro _ ⟨⟩)
  | executes i _ running below hd _ _ he =>
    obtain ⟨k, c, hk, rfl⟩ := he.faulted hs ht
    exact .fetched k c running below (hk.failsAtOperand hd)
  | resumes i _ waits _ _ hd _ _ he =>
    obtain ⟨k, c, hk, rfl⟩ := he.faulted hs ht
    exact .waiting k c waits (hk.failsAtOperand hd)

/-! ### What a faulting step changes -/

theorem FaultEffect.raises (he : FaultEffect s t) : ∃ u k, t = State.raise u k := by
  cases he <;> exact ⟨_, _, rfl⟩

theorem FaultEffect.frame (he : FaultEffect s t) :
    { t with status := s.status, faultKind := s.faultKind, faultAddr := s.faultAddr,
             ir := s.ir, opc := s.opc, opd := s.opd, console := s.console } = s := by
  cases he <;> rfl

/-- `fault_addr` holds an operand whole, since an operand has two digits. -/
theorem FailsAtOperand.uval_addr (hk : FailsAtOperand s w k) (h : k.kind = .addressOutOfBounds) :
    s.cfg.memSize ≤ uval k.addr ∧ uval k.addr = operandField w := by
  obtain ⟨a, rfl⟩ := Trap.kind_addressOutOfBounds h
  obtain ⟨ha, beyond⟩ := hk a rfl
  have digits := operandField_lt w
  have whole : uval (Trap.addressOutOfBounds a).addr = a := uval_ofNat (by omega)
  rw [whole]
  exact ⟨beyond, ha⟩

/-- `fault_addr` of AddressOutOfBounds is `pc` after a failed fetch, else the operand digits of `ir` (10_state R30). -/
theorem FaultEffect.faultAddr_bad (he : FaultEffect s t) (h : t.faultKind = .addressOutOfBounds) :
    s.cfg.memSize ≤ uval t.faultAddr ∧ uval t.faultAddr =
      if s.status = .running ∧ s.cfg.memSize ≤ uval s.pc then uval s.pc else operandField t.ir := by
  cases he with
  | fetch running beyond => simp [Trap.addr, running, beyond]
  | fetched k c _ below hk =>
    rw [if_neg fun failed => absurd failed.2 (by omega)]
    exact hk.uval_addr h
  | waiting k c waits hk =>
    rw [if_neg fun failed => by simp [waits] at failed]
    exact hk.uval_addr h

/-- Decode writes only what a fetch brought (30_encoding R91). -/
theorem FaultEffect.decoded_of_pc_beyond (he : FaultEffect s t) (beyond : s.cfg.memSize ≤ uval s.pc) :
    t.ir = s.ir ∧ t.opc = s.opc ∧ t.opd = s.opd := by
  cases he with
  | fetch | waiting => exact ⟨rfl, rfl, rfl⟩
  | fetched k c _ below => exact absurd below (by omega)

end Sys2Proof.Machine

open Sys2Proof Sys2Proof.Machine

/-- Settles O47: `raise` by its definition; a step by the three ways it faults, and where the fetch succeeded by the law of the
decoded registers. -/
theorem faultEntryChangesNothingElse : Obligations.FaultEntryChangesNothingElse := by
  unfold Obligations.FaultEntryChangesNothingElse
  refine ⟨fun s k => by cases k <;> rfl, fun s t hs h ht => ?_⟩
  have he : FaultEffect s t := step_faultEffect hs h ht
  refine ⟨he.frame, ?kind, ?addrZero, he.faultAddr_bad, ?latched, fun _ => he.decoded_of_pc_beyond⟩
  case kind =>
    obtain ⟨u, k, rfl⟩ := he.raises
    exact k.kind_ne_none
  case addrZero =>
    obtain ⟨u, k, rfl⟩ := he.raises
    exact fun h => Trap.addr_eq_zero h
  case latched =>
    intro running below
    obtain ⟨hir, hopc, hopd⟩ := step_decoded_registers ⟨running, below, rfl⟩ h
    rw [hir]
    exact ⟨rfl, hopc, hopd⟩
end

section
/-! The start port and the two ports that show the state (70_reset R265 to R267). -/

namespace Sys2Proof.Machine

open Sys2Proof.Claims (Fetches)

variable {i : Instr} {s : State} {w : Word}

/-! ### Start -/

theorem step_of_idle (h : s.status = .idle) : step s = .next s := by
  simp [step, coreStep, h]

theorem hostStart_of_idle (h : s.status = .idle) : hostStart s = s.setStatus .running := if_pos h

theorem hostStart_of_not_idle (h : s.status ≠ .idle) : hostStart s = s := if_neg h

/-- A fetched word that decodes is executed on the state decode has written (30_encoding R90 to R93). -/
theorem step_executes (hf : Fetches s w) (hd : decode s.cfg.opcodes w = .ok i) : step s = exec i (s.latch w) := by
  obtain ⟨running, below, rfl⟩ := hf
  rw [step_running running below, decodeExecute_ok hd]

/-! ### The snapshot port -/

/-- The statuses in which the host may read the snapshot port (70_reset R267). -/
theorem snapshotOpen_iff : snapshotOpen s = true ↔ s.status = .idle ∨ s.status = .halted ∨ s.status = .faulted := by
  cases h : s.status <;> simp [snapshotOpen, h]

/-- The statuses of a run in progress, in which the port is closed (70_reset R267). -/
theorem not_snapshotOpen_iff : ¬ snapshotOpen s = true ↔ s.status = .running ∨ s.status = .waitInput := by
  cases h : s.status <;> simp [snapshotOpen, h]

theorem readSnapshot_of_open (h : snapshotOpen s = true) : readSnapshot s = some (snapshotOf s) := if_pos h

theorem readSnapshot_of_closed (h : ¬ snapshotOpen s = true) : readSnapshot s = none := if_neg h

theorem readSnapshotCell_below {a : Nat} (h : snapshotOpen s = true) (below : a < s.cfg.memSize) :
    readSnapshotCell s a = some (s.cell a) := if_pos ⟨h, below⟩

theorem readSnapshotCell_beyond {a : Nat} (beyond : s.cfg.memSize ≤ a) : readSnapshotCell s a = none :=
  if_neg fun shown => absurd shown.2 (Nat.not_lt.2 beyond)

theorem readSnapshotCell_of_closed (h : ¬ snapshotOpen s = true) (a : Nat) : readSnapshotCell s a = none :=
  if_neg fun shown => h shown.1

end Sys2Proof.Machine

open Sys2Proof Sys2Proof.Machine

/-- Settles O58: start changes the status alone, so the core then fetches the word that stands at the `pc` of IDLE. -/
theorem startWorksOnlyInIdle : Obligations.StartWorksOnlyInIdle := by
  unfold Obligations.StartWorksOnlyInIdle
  intro s
  refine ⟨fun idle => ⟨step_of_idle idle, hostStart_of_idle idle, ?begins⟩, rfl, hostStart_of_not_idle⟩
  case begins =>
    intro i below hd
    have fetches : Claims.Fetches (s.setStatus .running) (s.cell (uval s.pc)) := ⟨rfl, below, rfl⟩
    rw [hostStart_of_idle idle]
    exact step_executes fetches hd

/-- Settles O59: the status decides whether the snapshot port is open, and the port is then a check on the address only. -/
theorem snapshotPortShowsTheState : Obligations.SnapshotPortShowsTheState := by
  unfold Obligations.SnapshotPortShowsTheState
  refine ⟨fun s => ⟨fun resting => ?opened, fun running => ?closed, rfl⟩, rfl, rfl⟩
  case opened =>
    have isOpen : snapshotOpen s = true := snapshotOpen_iff.2 resting
    exact ⟨readSnapshot_of_open isOpen, fun _ => readSnapshotCell_below isOpen, fun _ => readSnapshotCell_beyond⟩
  case closed =>
    have isClosed : ¬ snapshotOpen s = true := not_snapshotOpen_iff.2 running
    exact ⟨readSnapshot_of_closed isClosed, readSnapshotCell_of_closed isClosed⟩
end

section
/-! The encoder and the decoder as inverses (30_encoding R81, R86, R87, R102, R105), under every opcode map R85 allows. -/

namespace Sys2Proof

open Sys2Proof.Claims (ValidWord)

variable {a : OpcodeAssignment} {i : Instr} {m : Mnemonic} {n : Nat} {w : Word}

theorem encoderBlock_immediate (hn : n < 100) :
    encoderBlock a m (.immediate n) = .ok (BitVec.ofNat 16 (a.number m * 100 + n)) := if_neg (Nat.not_le.2 hn)

/-- The word the encoder composes has the fields it was composed from (30_encoding R102). -/
theorem decodeFields_compose (h : a.wf = true) (m : Mnemonic) (hn : n < 100) :
    decodeFields a (BitVec.ofNat 16 (a.number m * 100 + n)) = .ok (m, n) := by
  obtain ⟨back, _, hhigh⟩ := a.mnemonicOf_number h m
  obtain ⟨_, hopcode, hoperand⟩ := fields_of_compose hhigh hn
  exact decodeFields_ok.2 ⟨by rw [hopcode, back], hoperand⟩

theorem decode_compose (h : a.wf = true) (m : Mnemonic) (hn : n < 100) :
    decode a (BitVec.ofNat 16 (a.number m * 100 + n)) = .ok (m.instr n) := by
  rw [decode, decodeFields_compose h m hn]
  rfl

/-- A word that decodes is composed of the number of its mnemonic and of its digits (30_encoding R81). -/
theorem compose_of_decodeFields (h : a.wf = true) (hw : decodeFields a w = .ok (m, n)) :
    BitVec.ofNat 16 (a.number m * 100 + n) = w := by
  obtain ⟨hm, rfl⟩ := decodeFields_ok.1 hw
  rw [OpcodeAssignment.number_mnemonicOf h hm, ← uval_eq_fields, Machine.ofNat_uval]

/-- The ranges of 30_encoding R86 are those of the opcodes of R84. -/
theorem validWord_iff : ValidWord w ↔ (10 ≤ opcodeField w ∧ opcodeField w < 14) ∨
    (20 ≤ opcodeField w ∧ opcodeField w < 23) ∨ (30 ≤ opcodeField w ∧ opcodeField w < 46) := by
  unfold opcodeField
  omega

theorem validWord_iff_mnemonicOf (h : a.wf = true) : ValidWord w ↔ (a.mnemonicOf (opcodeField w)).isSome = true :=
  validWord_iff.trans (a.mnemonicOf_isSome h _).symm

theorem decode_isOk_iff : (∃ i, decode a w = .ok i) ↔ (a.mnemonicOf (opcodeField w)).isSome = true := by
  simp [decode_ok, Option.isSome_iff_exists]

end Sys2Proof

open Sys2Proof Sys2Proof.Machine

/-- Settles O31: with digits or without, the word is composed of the number and the digits, and an instruction that ignores its
digits is rebuilt from any. -/
theorem decodeOfEncodeIsTheInstruction : Obligations.DecodeOfEncodeIsTheInstruction := by
  unfold Obligations.DecodeOfEncodeIsTheInstruction
  intro a i ha hi
  rcases i.operand_cases hi with ⟨n, hn, operand, rebuilds⟩ | ⟨operand, rebuilds⟩
  · refine ⟨_, by rw [encode, operand, encoderBlock_immediate hn], ?_⟩
    rw [decode_compose ha i.mnemonic hn, rebuilds]
  · refine ⟨_, by rw [encode, operand]; rfl, ?_⟩
    have decodes := decode_compose ha i.mnemonic (n := 0) (by decide)
    rwa [rebuilds] at decodes

/-- Settles O32: the numbers lie in 10..=45, so the word lies in 1000..=4599 and has the fields it was composed from. -/
theorem encoderWordsDecodeBack : Obligations.EncoderWordsDecodeBack := by
  unfold Obligations.EncoderWordsDecodeBack
  intro a m n ha hn
  obtain ⟨_, hlow, hhigh⟩ := a.mnemonicOf_number ha m
  obtain ⟨value, _, _⟩ := fields_of_compose hhigh hn
  exact ⟨_, encoderBlock_immediate hn, value, by omega, by omega, decodeFields_compose ha m hn, by rintro rfl; rfl⟩

/-- Settles O33: the word is composed of its own fields, and the digits field is below 100. -/
theorem encoderInvertsDecode : Obligations.EncoderInvertsDecode := by
  unfold Obligations.EncoderInvertsDecode
  intro a w m n ha hw
  have digits : n < 100 := (decodeFields_ok.1 hw).2 ▸ operandField_lt w
  exact ⟨by rw [encoderBlock_immediate digits, compose_of_decodeFields ha hw], digits⟩

/-- Settles O35: both sides say that the opcode field is in the table. -/
theorem validWordsAreTheTablesRanges : Obligations.ValidWordsAreTheTablesRanges := by
  unfold Obligations.ValidWordsAreTheTablesRanges
  intro a w ha
  refine ⟨decode_isOk_iff.trans (validWord_iff_mnemonicOf ha).symm, fun invalid => decode_error.2 ⟨?_, rfl⟩⟩
  exact Option.not_isSome_iff_eq_none.1 (mt (validWord_iff_mnemonicOf ha).2 invalid)

/-- Settles O30: fourteen closed evaluations of the decoder. -/
theorem knownWordsDecode : Obligations.KnownWordsDecode := by
  unfold Obligations.KnownWordsDecode
  decide
end

section
/-! The invariant of the machine (10_state R25 to R32, 20_memory R50): what each update of the state needs to keep it, then the
instructions, the step and the host. -/

namespace Sys2Proof

/-- The operand of a well-formed instruction as a number has two digits (30_encoding R82). -/
theorem Instr.number_lt {i : Instr} (h : i.wf = true) : i.number < 100 := by
  rcases i.operand_cases h with ⟨n, hn, operand, _⟩ | ⟨operand, _⟩
  · simpa [Instr.number, operand] using hn
  · simp [Instr.number, operand]

theorem Config.memSize_le_of_wf {c : Config} (h : c.wf = true) : c.memSize ≤ 65535 := by
  simp only [Config.wf, Bool.and_eq_true, decide_eq_true_eq] at h
  exact h.1.2

theorem Config.standard_wf : Config.standard.wf = true := by decide

end Sys2Proof

namespace Sys2Proof.Machine

variable {i : Instr} {s t : State} {k : Trap} {w : Word} {v : Int} {a : Nat}

/-! ### Reset -/

/-- Whatever the count of resets, reset leaves a state of the invariant. -/
theorem inv_of_reset {c : Config} (hc : c.wf = true) (n : Nat) : ({ State.resetWith c with epoch := n } : State).Inv where
  config := hc
  memory := rfl
  pcBound := Nat.zero_le _
  decoded := by simp [State.resetWith, opcodeField, operandField, uval]
  faultStatus := by simp [State.resetWith]
  faultAddrZero _ := rfl
  faultAddrBad := by rintro ⟨⟩
  noReserved := by rintro ⟨⟩
  waiting := by rintro ⟨⟩
  waitingPc := by rintro ⟨⟩
  idle _ := ⟨rfl, rfl, rfl, rfl⟩
  sent := by rintro _ ⟨⟩

/-! ### The updates -/

/-- A core that runs, or has halted without a fault, is in neither of the statuses with demands of their own. -/
theorem State.Inv.setStatus {x : Status} (h : s.Inv) (hs : s.status ≠ .faulted) (hx : x = .running ∨ x = .halted) :
    (s.setStatus x).Inv :=
  { h with
    faultStatus := iff_of_false (mt h.faultStatus.1 hs) (by rcases hx with rfl | rfl <;> simp)
    waiting := by rcases hx with rfl | rfl <;> rintro ⟨⟩
    waitingPc := by rcases hx with rfl | rfl <;> rintro ⟨⟩
    idle := by rcases hx with rfl | rfl <;> rintro ⟨⟩ }

/-- A core may go into the wait on the READ or READ-IMMEDIATE that `ir` holds. -/
theorem State.Inv.wait (h : s.Inv) (hs : s.status ≠ .faulted) (below : uval s.pc < s.cfg.memSize)
    (hd : decode s.cfg.opcodes s.ir = .ok i) (hi : i.takesInput = true) : (s.setStatus .waitInput).Inv :=
  { h with
    faultStatus := iff_of_false (mt h.faultStatus.1 hs) (by simp)
    waiting := fun _ => by
      obtain ⟨a, rfl⟩ | rfl := Instr.takesInput_iff.1 hi
      · exact .inr ⟨a, hd⟩
      · exact .inl hd
    waitingPc := fun _ => below
    idle := by rintro ⟨⟩ }

/-- The console is no part of the invariant. -/
theorem State.Inv.withConsole (h : s.Inv) (c : List Answer) : ({ s with console := c } : State).Inv := { h with }

theorem State.Inv.takeAnswer (h : s.Inv) (hs : s.status ≠ .faulted) (rest : List Answer) : (s.takeAnswer rest).Inv :=
  (h.setStatus hs (.inl rfl)).withConsole rest

theorem State.Inv.latch (h : s.Inv) (hs : s.status = .running) (w : Word) : (s.latch w).Inv :=
  { h with
    decoded := ⟨rfl, rfl⟩
    waiting := by simp [hs]
    waitingPc := by simp [hs]
    idle := by simp [hs] }

/-- Fault entry keeps the invariant when the address it records, if it records one, is an address that fails the check. -/
theorem State.Inv.raise (h : s.Inv) (hk : ∀ a, k = .addressOutOfBounds a → s.cfg.memSize ≤ a ∧ a < 65536) :
    (s.raise k).Inv :=
  { h with
    faultStatus := iff_of_true k.kind_ne_none rfl
    faultAddrZero := Trap.addr_eq_zero
    faultAddrBad := fun hbad => by
      obtain ⟨a, rfl⟩ := Trap.kind_addressOutOfBounds hbad
      obtain ⟨beyond, fits⟩ := hk a rfl
      have whole : uval (Trap.addressOutOfBounds a).addr = a := uval_ofNat fits
      exact beyond.trans_eq whole.symm
    noReserved := by cases k <;> simp [Trap.kind]
    waiting := by rintro ⟨⟩
    waitingPc := by rintro ⟨⟩
    idle := by rintro ⟨⟩ }

theorem State.Inv.setCell (h : s.Inv) (below : a < s.cfg.memSize) (w : Word) : (s.setCell a w).Inv :=
  { h with memory := Memory.wf_write h.memory below }

section
variable (h : s.Inv) (running : s.status = .running)
include h running

theorem State.Inv.setAcc (v : Int) : (s.setAcc v).Inv := { h with idle := by simp [running] }

theorem State.Inv.emit (hv : inRange v = true) : (s.emit v).Inv :=
  { h with
    idle := by simp [running]
    sent := by
      intro x hx
      rcases List.mem_append.1 hx with hx | hx
      · exact h.sent x hx
      · rwa [List.mem_singleton.1 hx] }

/-- After a fetched instruction `pc` is at most N, so the advance never wraps (10_state R27). -/
theorem State.Inv.advance (below : uval s.pc < s.cfg.memSize) : s.advance.Inv :=
  have fits := Config.memSize_le_of_wf h.config
  have next : uval (s.pc + 1#16) = uval s.pc + 1 := uval_add_one (by omega)
  { h with
    pcBound := by simp [next]; omega
    waiting := by simp [running]
    waitingPc := by simp [running]
    idle := by simp [running] }

theorem State.Inv.jumpTo (ha : a < 100) : (s.jumpTo a).Inv :=
  have target : uval (zext16 a) = a := uval_zext16 (by omega)
  { h with
    pcBound := by simp [target]; omega
    waiting := by simp [running]
    waitingPc := by simp [running]
    idle := by simp [running] }
end

/-! ### Instructions and steps -/

/-- What an instruction raises on its operand is an address that fails the check, and has two digits. -/
theorem FailsAtOperand.bad_address (hk : FailsAtOperand s w k) :
    ∀ a, k = .addressOutOfBounds a → s.cfg.memSize ≤ a ∧ a < 65536 := by
  intro a ha
  obtain ⟨operand, beyond⟩ := hk a ha
  have digits := operandField_lt w
  exact ⟨beyond, by omega⟩

/-- Every fetched instruction keeps the invariant. -/
theorem Effect.inv (h : s.Inv) (running : s.status = .running) (below : uval s.pc < s.cfg.memSize)
    (hd : decode s.cfg.opcodes s.ir = .ok i) (he : Effect i s t) : t.Inv := by
  have notFaulted : s.status ≠ .faulted := by simp [running]
  cases he with
  | waits hi => exact h.wait notFaulted below hd hi
  | faults k _ hk => exact h.raise (hk.failsAtOperand hd).bad_address
  | inputFaults k _ rest _ _ hk => exact (h.takeAnswer notFaulted rest).raise (hk.failsAtOperand hd).bad_address
  | sends v _ hv => exact (h.emit running hv).advance running below
  | writesAcc v => exact (h.setAcc running v).advance running below
  | inputAcc v rest => exact ((h.takeAnswer notFaulted rest).setAcc rfl v).advance rfl below
  | storesAcc a _ ha => exact (h.setCell ha s.acc).advance running below
  | inputCell a v rest _ ha => exact ((h.takeAnswer notFaulted rest).setCell ha (bits16 v)).advance rfl below
  | jumps => exact h.jumpTo running (Instr.number_lt (decode_wf hd))
  | fallsThrough => exact h.advance running below
  | halts => exact h.setStatus notFaulted (.inr rfl)

/-- Taking an answer sets the status, so the status before it does not matter: the end of a wait is the execution of the
instruction in RUNNING (40_io R126). -/
theorem exec_answered_setStatus (hi : i.takesInput = true) (hc : s.console ≠ []) (x : Status) :
    exec i (s.setStatus x) = exec i s := by
  obtain ⟨r, rest, hc⟩ := List.exists_cons_of_ne_nil hc
  have hc' : (s.setStatus x).console = r :: rest := hc
  obtain ⟨a, rfl⟩ | rfl := Instr.takesInput_iff.1 hi
  · rw [exec_read_answered hc, exec_read_answered hc']
    rfl
  · rw [exec_readImmediate_answered hc, exec_readImmediate_answered hc']
    rfl

theorem StepEffect.inv (h : s.Inv) (he : StepEffect s t) : t.Inv := by
  cases he with
  | rests => exact h
  | fetchFaults _ beyond => exact h.raise (by rintro _ ⟨⟩; exact ⟨beyond, uval_lt s.pc⟩)
  | opcodeFaults _ running => exact (h.latch running _).raise (by rintro _ ⟨⟩)
  | executes i _ running below hd _ _ he => exact he.inv (h.latch running _) running below hd
  | resumes i _ waits hc hi hd hwf hexec =>
    have notFaulted : s.status ≠ .faulted := by simp [waits]
    rw [← exec_answered_setStatus hi hc .running] at hexec
    exact (exec_effect hwf hexec).inv (h.setStatus notFaulted (.inl rfl)) rfl (h.waitingPc waits) hd

/-- In the wait an answered core has its READ or READ-IMMEDIATE to go on with (log entry 9). -/
theorem State.Inv.waiting_instr (h : s.Inv) (hs : s.status = .waitInput) :
    ∃ i, i.takesInput = true ∧ decode s.cfg.opcodes s.ir = .ok i := by
  rcases h.waiting hs with hd | ⟨a, hd⟩ <;> exact ⟨_, rfl, hd⟩

theorem step_of_stopped (h : Stopped s) : step s = .next s := by
  rcases h with h | h <;> rw [step, coreStep, h]

/-- A running core always answers a next state: each check that fails is a fault of the core. -/
theorem step_running_answers (running : s.status = .running) : ∃ t, step s = .next t := by
  rcases Nat.lt_or_ge (uval s.pc) s.cfg.memSize with below | beyond
  · rw [step_running running below]
    cases hd : decode s.cfg.opcodes (s.cell (uval s.pc)) with
    | ok i =>
      obtain ⟨t, ht, _⟩ := exec_answers (s.latch (s.cell (uval s.pc))) (decode_wf hd)
      exact ⟨t, by rw [decodeExecute_ok hd, ht]⟩
    | error e => exact ⟨_, decodeExecute_error hd⟩
  · exact ⟨_, step_fetch_fault running beyond⟩

theorem step_waiting_answers (h : s.Inv) (waits : s.status = .waitInput) : ∃ t, step s = .next t := by
  by_cases hc : s.console = []
  · exact ⟨s, step_of_waitsUnanswered ⟨waits, hc⟩⟩
  · obtain ⟨i, hi, hd⟩ := h.waiting_instr waits
    obtain ⟨t, ht, _⟩ := exec_answers s (decode_wf hd)
    exact ⟨t, by rw [step, coreStep, waits, ← ht, ← resume_answered hc hi hd]⟩

/-! ### The host -/

theorem hostLoad_stored (hs : s.status = .idle) (below : a < s.cfg.memSize) (w : Word) :
    hostLoad s a w = (.stored, s.setCell a w) := by
  rw [hostLoad, if_pos hs, memWrite_below below]

theorem hostLoad_rejected (hs : s.status = .idle) (beyond : s.cfg.memSize ≤ a) (w : Word) :
    hostLoad s a w = (.loadError, s) := by
  rw [hostLoad, if_pos hs, memWrite_beyond beyond]

theorem hostLoad_ignored (hs : s.status ≠ .idle) (a : Nat) (w : Word) : hostLoad s a w = (.ignored, s) := if_neg hs

/-- The load port sets the cell or leaves the state (70_reset R263). -/
theorem hostLoad_cases (s : State) (a : Nat) (w : Word) :
    (s.status = .idle ∧ a < s.cfg.memSize ∧ (hostLoad s a w).2 = s.setCell a w) ∨ (hostLoad s a w).2 = s := by
  by_cases hs : s.status = .idle
  · rcases Nat.lt_or_ge a s.cfg.memSize with below | beyond
    · exact .inl ⟨hs, below, by rw [hostLoad_stored hs below]⟩
    · exact .inr (by rw [hostLoad_rejected hs beyond])
  · exact .inr (by rw [hostLoad_ignored hs])

/-- An answer waits at the console if a request is outstanding and unanswered; any other is ignored (log entry 17). -/
theorem hostAnswer_cases (s : State) (r : Answer) :
    (s.status = .waitInput ∧ hostAnswer s r = { s with console := [r] }) ∨ hostAnswer s r = s := by
  by_cases h : WaitsUnanswered s
  · exact .inl ⟨h.1, hostAnswer_of_waitsUnanswered h r⟩
  · exact .inr (if_neg h)

theorem State.Inv.hostLoad (h : s.Inv) (a : Nat) (w : Word) : (hostLoad s a w).2.Inv := by
  rcases hostLoad_cases s a w with ⟨_, below, hl⟩ | hl <;> rw [hl]
  · exact h.setCell below w
  · exact h

theorem State.Inv.hostAnswer (h : s.Inv) (r : Answer) : (hostAnswer s r).Inv := by
  rcases hostAnswer_cases s r with ⟨_, ha⟩ | ha <;> rw [ha]
  · exact h.withConsole [r]
  · exact h

theorem State.Inv.hostStart (h : s.Inv) : (hostStart s).Inv := by
  by_cases hs : s.status = .idle
  · rw [hostStart_of_idle hs]
    exact h.setStatus (by simp [hs]) (.inl rfl)
  · rwa [hostStart_of_not_idle hs]

theorem State.Inv.hostAct (h : s.Inv) (x : HostAction) : (hostAct x s).Inv := by
  cases x with
  | reset => exact inv_of_reset h.config _
  | load a w => exact h.hostLoad a w
  | start => exact h.hostStart
  | answer r => exact h.hostAnswer r

/-! ### The parameters (10_state R21) -/

theorem Effect.cfg (he : Effect i s t) : t.cfg = s.cfg := by cases he <;> rfl

theorem StepEffect.cfg (he : StepEffect s t) : t.cfg = s.cfg := by
  cases he with
  | rests | fetchFaults | opcodeFaults => rfl
  | executes _ _ _ _ _ _ _ he | resumes _ _ _ _ _ _ _ _ he => exact he.cfg

theorem hostAct_cfg (x : HostAction) (s : State) : (hostAct x s).cfg = s.cfg := by
  cases x with
  | reset => rfl
  | load a w => rcases hostLoad_cases s a w with ⟨_, _, hl⟩ | hl <;> simp [hostAct, hl]
  | start => by_cases hs : s.status = .idle <;> simp [hostAct, hostStart, hs]
  | answer r => rcases hostAnswer_cases s r with ⟨_, ha⟩ | ha <;> rw [hostAct, ha]

end Sys2Proof.Machine

open Sys2Proof Sys2Proof.Machine

/-- Settles O40: what a step can do, each way by the updates it is made of. -/
theorem stepKeepsTheInvariant : Obligations.StepKeepsTheInvariant := by
  unfold Obligations.StepKeepsTheInvariant
  exact fun _ _ hs h => (step_effect h).inv hs

/-- Settles O39: the reset states are those of `inv_of_reset` with no reset counted. -/
theorem resetMeetsTheInvariant : Obligations.ResetMeetsTheInvariant := by
  unfold Obligations.ResetMeetsTheInvariant
  exact ⟨inv_of_reset Config.standard_wf 0, fun _ hc => inv_of_reset hc 0⟩

/-- Settles O41: an action of the host resets, sets a cell below N, or moves a status or an answer. -/
theorem hostActionsKeepTheInvariant : Obligations.HostActionsKeepTheInvariant := by
  unfold Obligations.HostActionsKeepTheInvariant
  exact fun x _ hs => hs.hostAct x

/-- Settles O42, by induction on how the state is reached. -/
theorem everyReachableStateMeetsTheInvariant : Obligations.EveryReachableStateMeetsTheInvariant := by
  unfold Obligations.EveryReachableStateMeetsTheInvariant
  intro c s hc hr
  induction hr with
  | reset => exact ⟨resetMeetsTheInvariant.2 c hc, rfl⟩
  | core _ hstep ih =>
    obtain ⟨inv, cfg⟩ := ih
    exact ⟨stepKeepsTheInvariant _ _ inv hstep, (step_effect hstep).cfg.trans cfg⟩
  | host x _ ih =>
    obtain ⟨inv, cfg⟩ := ih
    exact ⟨hostActionsKeepTheInvariant x _ inv, (hostAct_cfg x _).trans cfg⟩

/-- Settles O43: by the status; only the wait needs the invariant, for the instruction `ir` holds. -/
theorem everyStepAnswersANextState : Obligations.EveryStepAnswersANextState := by
  unfold Obligations.EveryStepAnswersANextState
  intro s h
  cases hs : s.status with
  | idle => exact ⟨s, step_of_idle hs⟩
  | running => exact step_running_answers hs
  | waitInput => exact step_waiting_answers h hs
  | halted => exact ⟨s, step_of_stopped (.inl hs)⟩
  | faulted => exact ⟨s, step_of_stopped (.inr hs)⟩
end

section
/-! Words, quotient and remainder, and the uniqueness of the canonical memory (00_scope R9, R10, 20_memory R50). -/

namespace Sys2Proof.Machine

variable {d : Nat → Word} {m : Memory} {n a : Nat} {c : Nat × Word}

theorem sval_of_lt {w : Word} (h : uval w < 32768) : sval w = uval w := if_pos h

theorem sval_of_ge {w : Word} (h : 32768 ≤ uval w) : sval w = (uval w : Int) - 65536 := if_neg (by omega)

/-- `bits16(v)` is the pattern congruent to `v` modulo 65536 (00_scope R9). -/
theorem uval_bits16 (v : Int) : (uval (bits16 v) : Int) = v % 65536 := by
  rw [uval, bits16, BitVec.toNat_ofInt]
  omega

theorem tmod_natAbs_lt (x : Int) {y : Int} (hy : y ≠ 0) : (Int.tmod x y).natAbs < y.natAbs := by
  rw [Int.natAbs_tmod]
  exact Nat.mod_lt _ (Int.natAbs_pos.2 hy)

/-- A remainder that is not 0 has the sign of the dividend (00_scope R10). -/
theorem tmod_sign (x y : Int) : Int.tmod x y = 0 ∨ (0 < Int.tmod x y ↔ 0 < x) := by
  rcases le_total 0 x with hx | hx
  · have nonneg := Int.tmod_nonneg y hx
    have le := tmod_natAbs_le x y
    omega
  · have nonpos := Int.tmod_nonneg y (show 0 ≤ -x by omega)
    rw [Int.neg_tmod] at nonpos
    omega

/-! ### Reading a memory is knowing its entries -/

/-- A cell reads as the list holds no entry for it, or as its entry. -/
theorem Memory.read_eq_or_mem (d : Nat → Word) (m : Memory) (a : Nat) :
    Memory.read d m a = d a ∨ (a, Memory.read d m a) ∈ m := by
  induction m with
  | nil => exact .inl rfl
  | cons c m ih =>
    rw [Memory.read_cons]
    split
    · rename_i h
      exact .inr (by simp [← h])
    · exact ih.imp_right (List.mem_cons_of_mem c)

/-- With rising addresses the first entry of a cell is its only one. -/
theorem Memory.read_of_mem (hs : m.Pairwise fun x y => x.1 < y.1) (hc : c ∈ m) : Memory.read d m c.1 = c.2 := by
  induction m with
  | nil => cases hc
  | cons x m ih =>
    obtain ⟨first, rest⟩ := List.pairwise_cons.1 hs
    rcases List.mem_cons.1 hc with rfl | hc
    · exact if_pos rfl
    · rw [Memory.read_cons, if_neg (first c hc).ne, ih rest hc]

/-- The entries of a canonical memory are the cells that do not read as unlisted ones. -/
theorem Memory.mem_iff_read (h : Memory.wf n d m = true) :
    c ∈ m ↔ Memory.read d m c.1 = c.2 ∧ c.2 ≠ d c.1 := by
  obtain ⟨rising, entries⟩ := Memory.wf_iff.1 h
  constructor
  · exact fun hc => ⟨Memory.read_of_mem rising hc, (entries c hc).2⟩
  · rintro ⟨reads, listed⟩
    rcases Memory.read_eq_or_mem d m c.1 with unlisted | entry
    · exact absurd (reads.symm.trans unlisted) listed
    · rwa [reads] at entry

/-- Lists of rising addresses with the same entries are equal. -/
theorem Memory.eq_of_rising {m m' : Memory} (h : m.Pairwise fun x y => x.1 < y.1)
    (h' : m'.Pairwise fun x y => x.1 < y.1) (he : ∀ c, c ∈ m ↔ c ∈ m') : m = m' := by
  have : Std.Antisymm fun x y : Nat × Word => x.1 < y.1 := ⟨fun _ _ lt gt => absurd lt gt.asymm⟩
  have : Std.Irrefl fun x y : Nat × Word => x.1 < y.1 := ⟨fun x => lt_irrefl x.1⟩
  exact h.eq_of_mem_iff h' he

end Sys2Proof.Machine

open Sys2Proof Sys2Proof.Machine

/-- Settles O20: by O12 and O13 the two accumulators are the quotient and the remainder, both in range, so they read back as
numbers with the laws of truncating division. -/
theorem quotientAndRemainderFit : Obligations.QuotientAndRemainderFit := by
  unfold Obligations.QuotientAndRemainderFit
  intro s a below hb hab
  obtain ⟨quotient, _⟩ := divTruncatesOrFaults.2 s a
  obtain ⟨remainder, _⟩ := modKeepsTheSignOrFaults.2 s a
  have readsQuotient := sval_bits16 (tdiv_inRange hb hab (sval_inRange s.acc))
  have readsRemainder := sval_bits16 (inRange_iff.2 (tmod_inData s.acc (sval (s.cell a))))
  refine ⟨_, _, quotient below hb hab, (remainder below hb).1, ?_⟩
  rw [tdiv] at readsQuotient
  simp only [readsQuotient, readsRemainder]
  exact ⟨Int.tdiv_mul_add_tmod _ _, tmod_natAbs_lt _ hb, tmod_sign _ _⟩

/-- Settles O38: a canonical memory is the rising list of the cells that do not read as unlisted ones. -/
theorem canonicalMemoryIsUnique : Obligations.CanonicalMemoryIsUnique := by
  unfold Obligations.CanonicalMemoryIsUnique
  intro n d m m' h h' reads
  refine Memory.eq_of_rising (Memory.wf_iff.1 h).1 (Memory.wf_iff.1 h').1 fun c => ?_
  rw [Memory.mem_iff_read h, Memory.mem_iff_read h', reads]

/-- Settles O36: the reading of a pattern as a number, of a number as a pattern, and of an operand. -/
theorem wordReadings : Obligations.WordReadings := by
  unfold Obligations.WordReadings
  refine ⟨fun w => ⟨uval_lt w, sval_bounds w, sval_of_lt, sval_of_ge⟩, fun v hv => ?_, fun n => uval_zext16⟩
  exact ⟨uval_bits16 v, sval_bits16 (inRange_iff.2 hv)⟩
end

section
/-! The frame of the instructions and the faults they raise (10_state R23, R32, R35, 20_memory R55, 40_io R127,
60_exceptions R230), read off the states `Effect` allows. -/

namespace Sys2Proof

/-- No instruction a word can hold stores above the addresses two digits name (20_memory R55). -/
theorem Instr.storesAt_of_wf {i : Instr} {a : Nat} (h : i.wf = true) (ha : 100 ≤ a) : i.storesAt a = false := by
  have beyond : ∀ x : Instr, x.wf = true → x.number = a → False := fun x hx hn => by
    have := x.number_lt hx
    omega
  simp only [Instr.storesAt, Bool.or_eq_false_iff, decide_eq_false_iff_not]
  exact ⟨by rintro rfl; exact beyond _ h rfl, by rintro rfl; exact beyond _ h rfl⟩

end Sys2Proof

namespace Sys2Proof.Machine

variable {i : Instr} {s t : State} {k : Trap}

/-! ### The frame -/

theorem Effect.acc_eq (he : Effect i s t) (hi : i.writesAcc = false) : t.acc = s.acc := by
  cases he with
  | writesAcc _ hw => simp [hw] at hi
  | inputAcc _ _ read => subst read; cases hi
  | waits | faults | inputFaults | sends | storesAcc | inputCell | jumps | fallsThrough | halts => rfl

/-- A cell changes only under an instruction that stores at it (20_memory R55). -/
theorem Effect.cell_eq (he : Effect i s t) {b : Nat} (hi : i.storesAt b = false) : t.cell b = s.cell b := by
  cases he with
  | storesAcc a store =>
    have other : b ≠ a := by rintro rfl; simp [Instr.storesAt, store] at hi
    exact s.setCell_cell_other s.acc other
  | inputCell a v rest read =>
    have other : b ≠ a := by rintro rfl; simp [Instr.storesAt, read] at hi
    exact (s.takeAnswer rest).setCell_cell_other (bits16 v) other
  | waits | faults | inputFaults | sends | writesAcc | inputAcc | jumps | fallsThrough | halts => rfl

theorem Effect.output_eq (he : Effect i s t) (hi : i.sends = false) : t.output = s.output := by
  cases he with
  | sends _ hs => simp [hs] at hi
  | waits | faults | inputFaults | writesAcc | inputAcc | storesAcc | inputCell | jumps | fallsThrough | halts => rfl

theorem Effect.console_eq (he : Effect i s t) (hi : i.takesInput = false) : t.console = s.console := by
  cases he with
  | inputFaults _ _ _ ht => simp [ht] at hi
  | inputAcc _ _ read | inputCell _ _ _ read => subst read; cases hi
  | waits | faults | sends | writesAcc | storesAcc | jumps | fallsThrough | halts => rfl

theorem Effect.fault_registers_eq (he : Effect i s t) (ht : t.status ≠ .faulted) :
    t.faultKind = s.faultKind ∧ t.faultAddr = s.faultAddr := by
  cases he with
  | faults | inputFaults => exact absurd rfl ht
  | waits | sends | writesAcc | inputAcc | storesAcc | inputCell | jumps | fallsThrough | halts => exact ⟨rfl, rfl⟩

theorem Effect.status_eq (he : Effect i s t) (hh : i ≠ .halt) (hi : i.takesInput = false) :
    t.status = s.status ∨ t.status = .faulted := by
  cases he with
  | waits ht => simp [ht] at hi
  | inputAcc _ _ read | inputCell _ _ _ read => subst read; cases hi
  | halts halt => exact absurd halt hh
  | faults | inputFaults => exact .inr rfl
  | sends | writesAcc | storesAcc | jumps | fallsThrough => exact .inl rfl

theorem Effect.epoch_eq (he : Effect i s t) : t.epoch = s.epoch := by cases he <;> rfl

/-- A value is sent after all sent before, one at a time and in the data range (40_io R121). -/
theorem Effect.output_cases (he : Effect i s t) :
    t.output = s.output ∨ ∃ v, inRange v = true ∧ t.output = s.output ++ [v] := by
  cases he with
  | sends v _ hv => exact .inr ⟨v, hv, rfl⟩
  | waits | faults | inputFaults | writesAcc | inputAcc | storesAcc | inputCell | jumps | fallsThrough | halts =>
    exact .inl rfl

theorem StepEffect.output_cases (he : StepEffect s t) :
    t.output = s.output ∨ ∃ v, inRange v = true ∧ t.output = s.output ++ [v] := by
  cases he with
  | rests | fetchFaults | opcodeFaults => exact .inl rfl
  | executes _ _ _ _ _ _ _ he | resumes _ _ _ _ _ _ _ _ he => exact he.output_cases

/-! ### The end of a run -/

/-- An instruction that ends a run is HALT, or has faulted (30_encoding R95). -/
theorem Effect.ends (he : Effect i s t) (hs : ¬ Stopped s) (ht : Stopped t) :
    (i = .halt ∧ EndedSuccessfully t) ∨ (Aborted t ∧ t.faultKind ≠ .none) := by
  cases he with
  | halts halt => exact .inl ⟨halt, rfl⟩
  | faults k | inputFaults k => exact .inr ⟨rfl, k.kind_ne_none⟩
  | waits | inputAcc | inputCell => rcases ht with ht | ht <;> cases ht
  | sends | writesAcc | storesAcc | jumps | fallsThrough => exact absurd ht hs

/-! ### The decoded-instruction registers as data that is not read -/

/-- `s` with other values in `ir`, `opc` and `opd`. -/
def State.withDecoded (s : State) (x : Word) (y z : Nat) : State := { s with ir := x, opc := y, opd := z }

section
open Sys2Proof.Claims (mapNext)

variable (x : Word) (y z : Nat)

/-- The end of a rule commutes with the change when the effect of the rule has been changed. -/
theorem complete_withDecoded (s : State) (r : Except Trap State) :
    complete (s.withDecoded x y z) (r.map (·.withDecoded x y z)) = mapNext (·.withDecoded x y z) (complete s r) := by
  cases r <;> rfl

/-- A rule whose effect is an update of the state by an operand. -/
theorem complete_map_withDecoded {α : Type} (s : State) (e : Except Trap α) (f : α → State) :
    complete (s.withDecoded x y z) (e.map fun v => (f v).withDecoded x y z) =
      mapNext (·.withDecoded x y z) (complete s (e.map f)) := by
  cases e <;> rfl

theorem memWrite_withDecoded (s : State) (a : Nat) (w : Word) :
    memWrite (s.withDecoded x y z) a w = (memWrite s a w).map (·.withDecoded x y z) := by
  rcases Nat.lt_or_ge a s.cfg.memSize with below | beyond
  · rw [memWrite_below below]
    exact if_pos below
  · rw [memWrite_beyond beyond]
    exact if_neg (Nat.not_lt.2 beyond)

theorem arith_withDecoded (f : Int → Int → Except Trap Int) (b : Except Trap Int) (s : State) :
    arith f b (s.withDecoded x y z) = mapNext (·.withDecoded x y z) (arith f b s) :=
  complete_map_withDecoded x y z s (b.bind fun v => f (sval s.acc) v) s.setAcc

theorem jumpIf_withDecoded (c : Bool) (a : Nat) (s : State) :
    jumpIf c a (s.withDecoded x y z) = mapNext (·.withDecoded x y z) (jumpIf c a s) := by
  cases c <;> rfl

theorem execStore_withDecoded (a : Nat) (s : State) :
    execStore a (s.withDecoded x y z) = mapNext (·.withDecoded x y z) (execStore a s) := by
  rw [execStore, memWrite_withDecoded]
  exact complete_withDecoded x y z s _

/-- READ: the answer's check does not read the state, and the store commutes. -/
theorem execRead_withDecoded (a : Nat) (s : State) :
    execRead a (s.withDecoded x y z) = mapNext (·.withDecoded x y z) (execRead a s) := by
  cases hc : s.console with
  | nil => rw [execRead, execRead, inRead_unanswered hc, inRead_unanswered (by exact hc)]; rfl
  | cons r rest =>
    have stores : (r.check.bind fun v => memWrite ((s.takeAnswer rest).withDecoded x y z) a (bits16 v)) =
        (r.check.bind fun v => memWrite (s.takeAnswer rest) a (bits16 v)).map (·.withDecoded x y z) := by
      cases r.check with
      | error k => rfl
      | ok v => exact memWrite_withDecoded x y z _ a (bits16 v)
    rw [execRead, execRead, inRead_answered hc, inRead_answered (s := s.withDecoded x y z) hc]
    exact (congrArg _ stores).trans (complete_withDecoded x y z (s.takeAnswer rest) _)

theorem execReadImmediate_withDecoded (s : State) :
    execReadImmediate (s.withDecoded x y z) = mapNext (·.withDecoded x y z) (execReadImmediate s) := by
  cases hc : s.console with
  | nil => rw [execReadImmediate, execReadImmediate, inRead_unanswered hc, inRead_unanswered (by exact hc)]; rfl
  | cons r rest =>
    rw [execReadImmediate, execReadImmediate, inRead_answered hc, inRead_answered (s := s.withDecoded x y z) hc]
    exact complete_map_withDecoded x y z (s.takeAnswer rest) r.check (s.takeAnswer rest).setAcc

/-- No meaning reads `ir`, `opc` or `opd` (10_state R35). -/
theorem exec_withDecoded (i : Instr) (s : State) :
    exec i (s.withDecoded x y z) = mapNext (·.withDecoded x y z) (exec i s) := by
  cases i with
  | read a => exact execRead_withDecoded x y z a s
  | readImmediate => exact execReadImmediate_withDecoded x y z s
  | store a => exact execStore_withDecoded x y z a s
  | write a => exact complete_map_withDecoded x y z s (memoryOperand s a) s.emit
  | load a => exact complete_map_withDecoded x y z s (memoryOperand s a) s.setAcc
  | writeAccumulator | loadImmediate | jump | halt => rfl
  | add | sub | div | mod | mul | addImmediate | subImmediate | divImmediate | modImmediate | mulImmediate =>
    exact arith_withDecoded x y z _ _ s
  | jumpIfNegative a | jumpIfZero a | jumpIfNotZero a | jumpIfGreaterThanZero a =>
    exact jumpIf_withDecoded x y z _ a s
end

/-! ### STORE -/

theorem exec_store_below {a : Nat} (below : a < s.cfg.memSize) :
    exec (.store a) s = .next (s.setCell a s.acc).advance := by
  rw [exec, execStore, bits16_sval, memWrite_below below]
  rfl

end Sys2Proof.Machine

open Sys2Proof Sys2Proof.Machine

/-- Settles O45: the frame lemmas above, one for each field. -/
theorem everyInstructionKeepsItsFrame : Obligations.EveryInstructionKeepsItsFrame := by
  unfold Obligations.EveryInstructionKeepsItsFrame
  intro i s t hwf h
  have he : Effect i s t := exec_effect hwf h
  obtain ⟨hir, hopc, hopd⟩ := he.decoded_registers
  exact ⟨he.acc_eq, fun _ => he.cell_eq, fun _ ha => he.cell_eq (Instr.storesAt_of_wf hwf ha), he.output_eq,
    he.console_eq, he.fault_registers_eq, he.status_eq, he.cfg, hir, hopc, hopd, he.epoch_eq⟩

/-- Settles O46: a fault is one the instruction may raise, and a failed bounds check names its operand, below 100. -/
theorem faultsAreTheOnesTheTableNames : Obligations.FaultsAreTheOnesTheTableNames := by
  unfold Obligations.FaultsAreTheOnesTheTableNames
  intro i s t hwf hs h ht
  obtain ⟨k, c, ⟨raised, operand⟩, rfl⟩ := (exec_effect hwf h).faulted hs ht
  have digits := i.number_lt hwf
  have bad : k.kind = .addressOutOfBounds → k.addr = BitVec.ofNat 16 i.number ∧ s.cfg.memSize ≤ i.number := by
    intro hk
    obtain ⟨a, rfl⟩ := Trap.kind_addressOutOfBounds hk
    obtain ⟨rfl, beyond⟩ := operand a rfl
    exact ⟨rfl, beyond⟩
  refine ⟨raised, fun large hk => ?_, bad⟩
  have beyond := (bad hk).2
  omega

/-- Settles O48: `exec_withDecoded` in the words of the statement. -/
theorem executionIgnoresTheDecodedRegisters : Obligations.ExecutionIgnoresTheDecodedRegisters := by
  unfold Obligations.ExecutionIgnoresTheDecodedRegisters
  exact fun i s x y z => exec_withDecoded x y z i s

/-- Settles O49: what a step sends is what its instruction sends. -/
theorem outputOnlyGrows : Obligations.OutputOnlyGrows := by
  unfold Obligations.OutputOnlyGrows
  intro s t h
  exact (step_effect h).output_cases.imp_right fun ⟨v, hv, ho⟩ => ⟨v, inRange_iff.1 hv, ho⟩

/-- Settles O27: `step_executes`. -/
theorem stepRunsTheDecodedInstruction : Obligations.StepRunsTheDecodedInstruction := by
  unfold Obligations.StepRunsTheDecodedInstruction
  exact fun _ _ _ hf hd => step_executes hf hd

/-- Settles O50: the STORE leaves its word in the cell that `pc` then names, and below 65535 `pc` does not wrap. -/
theorem storedWordExecutesNext : Obligations.StoredWordExecutesNext := by
  unfold Obligations.StoredWordExecutesNext
  intro s w j hN hf hd below hj
  have stores : step s = .next ((s.latch w).setCell (uval s.pc + 1) s.acc).advance := by
    rw [step_executes hf hd]
    exact exec_store_below (s := s.latch w) below
  have next : uval (s.pc + 1#16) = uval s.pc + 1 := uval_add_one (by omega)
  have fetches : Claims.Fetches ((s.latch w).setCell (uval s.pc + 1) s.acc).advance s.acc :=
    ⟨hf.1, by simpa [next] using below, by simp [next]⟩
  exact ⟨_, stores, rfl, step_executes fetches hj⟩

/-- Settles O1: with an answer the rule is the one of a core that has taken it. -/
theorem readStoresTheAnswerOrFaults : Obligations.ReadStoresTheAnswerOrFaults := by
  unfold Obligations.ReadStoresTheAnswerOrFaults
  intro s a
  refine ⟨?stores, ?outOfBounds, ?outOfRange, ?malformed, exec_unanswered rfl⟩
  case stores =>
    intro v rest hc hv below
    refine ⟨(s.takeAnswer rest).advance.setCell a (bits16 v), ?_, State.setCell_stores (fun _ => rfl) a (bits16 v)⟩
    rw [exec_read_answered hc, Answer.check_value (inRange_iff.2 hv)]
    exact congrArg (complete (s.takeAnswer rest)) (memWrite_below (s := s.takeAnswer rest) below)
  case outOfBounds =>
    intro v rest hc hv beyond
    rw [exec_read_answered hc, Answer.check_value (inRange_iff.2 hv)]
    exact congrArg (complete (s.takeAnswer rest)) (memWrite_beyond (s := s.takeAnswer rest) beyond)
  case outOfRange =>
    intro v rest hc hv
    rw [exec_read_answered hc, Answer.check_not_inData hv]
    rfl
  case malformed => exact fun rest hc => exec_read_answered hc a

/-- Settles O4: as O1, with `acc` for the cell, so that no bounds check follows the check of the answer. -/
theorem readImmediateTakesTheAnswerOrFaults : Obligations.ReadImmediateTakesTheAnswerOrFaults := by
  unfold Obligations.ReadImmediateTakesTheAnswerOrFaults
  intro s
  refine ⟨?takes, ?outOfRange, ?malformed, exec_unanswered rfl⟩
  case takes =>
    intro v rest hc hv
    rw [exec_readImmediate_answered hc, Answer.check_value (inRange_iff.2 hv)]
    rfl
  case outOfRange =>
    intro v rest hc hv
    rw [exec_readImmediate_answered hc, Answer.check_not_inData hv]
    rfl
  case malformed => exact fun rest hc => exec_readImmediate_answered hc
end

section
/-! Runs that have ended, runs that never end, and what the host can do to them (30_encoding R95, 43_control R206,
70_reset R260 to R276). -/

namespace Sys2Proof.Machine

variable {s t : State} {w : Word}

theorem StepEffect.ends (he : StepEffect s t) (hs : ¬ Stopped s) (ht : Stopped t) :
    (EndedSuccessfully t ∧ s.status = .running ∧ uval s.pc < s.cfg.memSize ∧
      decode s.cfg.opcodes (s.cell (uval s.pc)) = .ok .halt) ∨ (Aborted t ∧ t.faultKind ≠ .none) := by
  cases he with
  | rests => exact absurd ht hs
  | fetchFaults => exact .inr ⟨rfl, (Trap.addressOutOfBounds (uval s.pc)).kind_ne_none⟩
  | opcodeFaults => exact .inr ⟨rfl, Trap.invalidOpcode.kind_ne_none⟩
  | executes i _ running below hd _ _ he =>
    rcases he.ends hs ht with ⟨rfl, halted⟩ | aborted
    · exact .inl ⟨halted, running, below, hd⟩
    · exact .inr aborted
  | resumes i _ _ _ hi _ _ _ he =>
    rcases he.ends hs ht with ⟨rfl, _⟩ | aborted
    · cases hi
    · exact .inr aborted

/-- A state that steps to itself is where every run from it is. -/
theorem run_of_step_self (h : step s = .next s) (k : Nat) : Host.Core.run core k s = .next s := by
  induction k with
  | zero => rfl
  | succ k ih =>
    have first : core.step s = .next s := h
    simp [Host.Core.run, first, ih]

/-- A step into a state that steps to itself. -/
theorem run_of_step (h : step s = .next t) (ht : step t = .next t) (k : Nat) :
    Host.Core.run core (k + 1) s = .next t := by
  have first : core.step s = .next t := h
  simp [Host.Core.run, first, run_of_step_self ht k]

/-- A JUMP to its own address sets `pc` to what it is (43_control R206). -/
theorem step_jump_to_self (hf : Claims.Fetches s w) (hd : decode s.cfg.opcodes w = .ok (.jump (uval s.pc))) :
    step s = .next (s.latch w) := by
  rw [step_executes hf hd]
  simp [exec, execJump, State.jumpTo, zext16, State.latch]

/-! ### The host -/

/-- After reset the load port and start have nothing to work on until the next reset (70_reset R263, R265). -/
theorem hostAct_of_not_idle {x : HostAction} (hs : s.status ≠ .idle) (hx : x ≠ .reset) :
    hostAct x s = s ∨ ∃ r, x = .answer r := by
  cases x with
  | reset => exact absurd rfl hx
  | load a w => exact .inl (by rw [hostAct, hostLoad_ignored hs])
  | start => exact .inl (hostStart_of_not_idle hs)
  | answer r => exact .inr ⟨r, rfl⟩

theorem hostAnswer_of_not_waiting (hs : s.status ≠ .waitInput) (r : Answer) : hostAnswer s r = s :=
  if_neg fun h => hs h.1

/-- Where no request is outstanding and nothing can be loaded, only reset does anything (70_reset R270, R271). -/
theorem hostAct_eq_self {x : HostAction} (hi : s.status ≠ .idle) (hw : s.status ≠ .waitInput) (hx : x ≠ .reset) :
    hostAct x s = s := by
  rcases hostAct_of_not_idle hi hx with h | ⟨r, rfl⟩
  · exact h
  · exact hostAnswer_of_not_waiting hw r

/-! ### Cells after reset -/

theorem cell_of_reset {c : Config} {n a : Nat} (h : c.memInit = .zero) :
    ({ State.resetWith c with epoch := n } : State).cell a = 0 := by
  simp [State.cell, State.unlisted, State.resetWith, h]

theorem cell_of_reset_arbitrary {c : Config} {n a : Nat} (h : c.memInit = .arbitrary) :
    ({ State.resetWith c with epoch := n } : State).cell a = Config.arbitraryCell n a := by
  simp [State.cell, State.unlisted, State.resetWith, h]

/-! ### The load port and images -/

theorem hostLoad_frame (s : State) (a : Nat) (w : Word) : { (hostLoad s a w).2 with mem := s.mem } = s := by
  rcases hostLoad_cases s a w with ⟨_, _, h⟩ | h
  · rw [h]; rfl
  · rw [h]

theorem hostLoad_status (s : State) (a : Nat) (w : Word) : (hostLoad s a w).2.status = s.status := by
  rcases hostLoad_cases s a w with ⟨_, _, h⟩ | h <;> simp [h]

theorem hostLoad_memSize (s : State) (a : Nat) (w : Word) : (hostLoad s a w).2.cfg.memSize = s.cfg.memSize :=
  congrArg Config.memSize (hostAct_cfg (.load a w) s)

theorem hostLoad_cell_same {a : Nat} (hs : s.status = .idle) (below : a < s.cfg.memSize) (w : Word) :
    (hostLoad s a w).2.cell a = w := by
  rw [hostLoad_stored hs below, State.setCell_cell_same]

theorem hostLoad_cell_other {a b : Nat} (w : Word) (h : b ≠ a ∨ s.cfg.memSize ≤ b) :
    (hostLoad s a w).2.cell b = s.cell b := by
  rcases hostLoad_cases s a w with ⟨_, below, hl⟩ | hl
  · rw [hl, State.setCell_cell_other s w (by omega)]
  · rw [hl]

theorem loadImageFrom_frame (s : State) (a : Nat) (ws : List Word) :
    { loadImageFrom s a ws with mem := s.mem } = s := by
  induction ws generalizing s a with
  | nil => rfl
  | cons w ws ih =>
    have rest := congrArg (fun t : State => { t with mem := s.mem }) (ih (hostLoad s a w).2 (a + 1))
    exact rest.trans (hostLoad_frame s a w)

/-- An image changes no cell outside its addresses and none from N on. -/
theorem loadImageFrom_cell_other {b : Nat} (s : State) (a : Nat) (ws : List Word)
    (h : b < a ∨ a + ws.length ≤ b ∨ s.cfg.memSize ≤ b) : (loadImageFrom s a ws).cell b = s.cell b := by
  induction ws generalizing s a with
  | nil => rfl
  | cons w ws ih =>
    rw [List.length_cons] at h
    have first : b ≠ a ∨ s.cfg.memSize ≤ b := by omega
    rw [loadImageFrom, ih _ _ (by rw [hostLoad_memSize]; omega), hostLoad_cell_other w first]

/-- Below N word `k` of an image lies `k` cells after its first (70_reset R264). -/
theorem loadImageFrom_cell {k : Nat} (s : State) (a : Nat) (ws : List Word) (hs : s.status = .idle)
    (hk : k < ws.length) (below : a + k < s.cfg.memSize) : (loadImageFrom s a ws).cell (a + k) = ws[k] := by
  induction ws generalizing s a k with
  | nil => cases hk
  | cons w ws ih =>
    rw [loadImageFrom]
    cases k with
    | zero =>
      rw [loadImageFrom_cell_other _ _ _ (by omega)]
      exact hostLoad_cell_same hs below w
    | succ k =>
      have next := ih (hostLoad s a w).2 (a + 1) (k := k) (by rw [hostLoad_status, hs])
        (Nat.lt_of_succ_lt_succ hk) (by rw [hostLoad_memSize]; omega)
      rwa [Nat.add_right_comm] at next

end Sys2Proof.Machine

open Sys2Proof Sys2Proof.Machine

/-- Settles O51: what a step can do, read for its end. -/
theorem onlyHaltAndFaultsEndARun : Obligations.OnlyHaltAndFaultsEndARun := by
  unfold Obligations.OnlyHaltAndFaultsEndARun
  exact fun _ _ hs h ht => (step_effect h).ends hs ht

/-- Settles O52: a stopped core steps to itself, and in neither HALTED nor FAULTED has the host an action but reset. -/
theorem aStoppedCoreStaysStopped : Obligations.AStoppedCoreStaysStopped := by
  unfold Obligations.AStoppedCoreStaysStopped
  intro s h
  have notIdle : s.status ≠ .idle := by rcases h with h | h <;> rw [h] <;> decide
  have notWaiting : s.status ≠ .waitInput := by rcases h with h | h <;> rw [h] <;> decide
  exact ⟨run_of_step_self (step_of_stopped h), fun _ => hostAct_eq_self notIdle notWaiting, rfl⟩

/-- Settles O53: an unanswered wait steps to itself, and only IDLE knows the load port and start. -/
theorem anUnansweredWaitNeverEnds : Obligations.AnUnansweredWaitNeverEnds := by
  unfold Obligations.AnUnansweredWaitNeverEnds
  intro s h
  refine ⟨run_of_step_self (step_of_waitsUnanswered h), fun x changes => or_iff_not_imp_left.2 fun hx => ?_⟩
  exact (hostAct_of_not_idle (by simp [h.1]) hx).resolve_left changes

/-- Settles O54: after the first step the decoded registers hold the JUMP, so that every later step changes nothing. -/
theorem aJumpToItselfNeverEnds : Obligations.AJumpToItselfNeverEnds := by
  unfold Obligations.AJumpToItselfNeverEnds
  intro s w hf hd
  have again : step (s.latch w) = .next ((s.latch w).latch w) := step_jump_to_self hf hd
  exact run_of_step (step_jump_to_self hf hd) again

/-- Settles O55: the registers by definition, the cells by what an unlisted cell holds; in IDLE an answer is ignored. -/
theorem resetSetsEverything : Obligations.ResetSetsEverything := by
  unfold Obligations.ResetSetsEverything
  refine ⟨fun s => ⟨rfl, fun _ => cell_of_reset, fun _ => cell_of_reset_arbitrary, fun r => ?_⟩, rfl, rfl, rfl, rfl, rfl,
    rfl, rfl, rfl, rfl, fun _ => cell_of_reset (n := 0) rfl⟩
  exact hostAnswer_of_not_waiting (by rintro ⟨⟩) r

/-- Settles O56: the three answers of the load port. -/
theorem loadPortWritesOnlyInIdle : Obligations.LoadPortWritesOnlyInIdle := by
  unfold Obligations.LoadPortWritesOnlyInIdle
  intro s a w
  refine ⟨fun idle below => ?_, fun idle beyond => hostLoad_rejected idle beyond w, fun h => hostLoad_ignored h a w⟩
  exact ⟨s.setCell a w, hostLoad_stored idle below w, State.setCell_stores (fun _ => rfl) a w⟩

/-- Settles O57: an image from address 0. -/
theorem imageLiesFromAddressZero : Obligations.ImageLiesFromAddressZero := by
  unfold Obligations.ImageLiesFromAddressZero
  intro s ws idle
  refine ⟨fun k below hk => ?words, fun a outside => ?others, loadImageFrom_frame s 0 ws⟩
  case words =>
    have word := loadImageFrom_cell s 0 ws idle hk (by omega)
    rwa [Nat.zero_add] at word
  case others => exact loadImageFrom_cell_other s 0 ws (by omega)

/-- Settles O60: in a run load and start are ignored, and an answer only reaches the console of a core that waits. -/
theorem hostCannotTouchARun : Obligations.HostCannotTouchARun := by
  unfold Obligations.HostCannotTouchARun
  intro x s hx
  refine ⟨fun running => hostAct_eq_self (by simp [running]) (by simp [running]) hx, fun waits => ?_⟩
  have notIdle : s.status ≠ .idle := by simp [waits]
  rcases hostAct_of_not_idle notIdle hx with h | ⟨r, rfl⟩
  · rw [h]
    exact ⟨rfl, .inl rfl⟩
  · rcases hostAnswer_cases s r with ⟨_, h⟩ | h <;> rw [hostAct, h]
    · exact ⟨rfl, .inr ⟨r, rfl, rfl⟩⟩
    · exact ⟨rfl, .inl rfl⟩
end
